-- ==== Sys2Proof/Word.lean ====
section
/-! DEFINITION. The machine's word, byte and register index (00_scope.md R5, R7). -/

namespace Sys2Proof

/-- A register value, an address or an instruction word: 32 bits with no sign of their own (R7, R11).
`BitVec.toNat` is the spec's `u(v)`, `BitVec.toInt` its `s(v)`, `+` is modulo 2^32. -/
abbrev Word := BitVec 32

/-- One element of the memory array (20_memory.md R30). -/
abbrev Byte := BitVec 8

/-- The index of a general register, 0 to 31 (R8, R51). -/
abbrev Reg := BitVec 5

/-- The stack pointer register, `x2` (10_state.md R15, decision D8).
PRESUMED: the spec itself marks the index as general knowledge (log entry 6). -/
abbrev Reg.sp : Reg := 2#5

end Sys2Proof
end

