-- ==== Sys2Proof/Syntax.lean ====
section
/-! DEFINITION. The instructions, one constructor per row of the opcode table, and the operands of the spec's
assembler lines (30_encoding.md R68, R69). -/

namespace Sys2Proof

/-- A decoded instruction (40_step_and_dispatch.md R84). `imm` is the output of the I-type immediate decoder,
already sign-extended to 32 bits (30_encoding.md R54, 41_op_imm_arith.md R100); `shamt` is the five-bit shift
amount (R59). -/
inductive Instr where
  /-- R101 -/
  | addi (rd rs1 : Reg) (imm : Word)
  /-- R102 -/
  | slti (rd rs1 : Reg) (imm : Word)
  /-- R103 -/
  | sltiu (rd rs1 : Reg) (imm : Word)
  /-- R104 -/
  | xori (rd rs1 : Reg) (imm : Word)
  /-- R105 -/
  | ori (rd rs1 : Reg) (imm : Word)
  /-- R106 -/
  | andi (rd rs1 : Reg) (imm : Word)
  /-- R111; `ignored` is `inst[31:25]`, which selects nothing and is no operand (R64, decision D18). -/
  | slli (rd rs1 : Reg) (shamt : BitVec 5) (ignored : BitVec 7)
  /-- R112 -/
  | srli (rd rs1 : Reg) (shamt : BitVec 5)
  /-- R113 -/
  | srai (rd rs1 : Reg) (shamt : BitVec 5)
  /-- Any word of the LOAD class (R121); `rest` is `inst[31:7]`, none of which is examined. -/
  | load (rest : BitVec 25)
  /-- Any word of the STORE class (R122); `rest` is `inst[31:7]`, none of which is examined. -/
  | store (rest : BitVec 25)
  deriving DecidableEq, Repr

/-- The nine implemented instructions (R2); the two classes without a handler are not among them. -/
def Instr.implemented : Instr → Bool
  | .addi .. | .slti .. | .sltiu .. | .xori .. | .ori .. | .andi .. => true
  | .slli .. | .srli .. | .srai .. => true
  | .load .. | .store .. => false

/-- The register an implemented instruction writes, `rd = inst[11:7]` (10_state.md R14); a word of the LOAD or
STORE class writes none (R121, R122). -/
def Instr.dest : Instr → Option Reg
  | .addi rd _ _ | .slti rd _ _ | .sltiu rd _ _ | .xori rd _ _ | .ori rd _ _ | .andi rd _ _ => some rd
  | .slli rd _ _ _ | .srli rd _ _ | .srai rd _ _ => some rd
  | .load _ | .store _ => none

/-- The register an implemented instruction reads, `rs1 = inst[19:15]` (10_state.md R14). -/
def Instr.source : Instr → Option Reg
  | .addi _ rs1 _ | .slti _ rs1 _ | .sltiu _ rs1 _ | .xori _ rs1 _ | .ori _ rs1 _ | .andi _ rs1 _ => some rs1
  | .slli _ rs1 _ _ | .srli _ rs1 _ | .srai _ rs1 _ => some rs1
  | .load _ | .store _ => none

/-- The mnemonics of the assembler lines of R68. -/
inductive Mnemonic where
  | addi | slti | sltiu | xori | ori | andi | slli | srli | srai
  deriving DecidableEq, Repr

/-- One assembler line `MNEMONIC rd, rs1, operand` (R68): register numbers and the third operand as written,
before any range check. -/
structure AsmLine where
  mnemonic : Mnemonic
  rd : Nat
  rs1 : Nat
  operand : Int
  deriving DecidableEq, Repr

/-- The instruction a line spells, or none where an operand is out of its range (R68): registers 0 to 31, an
immediate -2048 to 2047, a shift amount 0 to 31. SLLI is assembled with zeros in the ignored bits. -/
def AsmLine.assemble (l : AsmLine) : Option Instr :=
  let rd : Reg := BitVec.ofNat 5 l.rd
  let rs1 : Reg := BitVec.ofNat 5 l.rs1
  let imm : Word := BitVec.ofInt 32 l.operand
  let shamt : BitVec 5 := BitVec.ofInt 5 l.operand
  let regsFit : Bool := decide (l.rd < 32) && decide (l.rs1 < 32)
  let immFits : Bool := decide (-2048 ≤ l.operand) && decide (l.operand ≤ 2047)
  let shamtFits : Bool := decide (0 ≤ l.operand) && decide (l.operand ≤ 31)
  match l.mnemonic with
  | .addi => if regsFit && immFits then some (.addi rd rs1 imm) else none
  | .slti => if regsFit && immFits then some (.slti rd rs1 imm) else none
  | .sltiu => if regsFit && immFits then some (.sltiu rd rs1 imm) else none
  | .xori => if regsFit && immFits then some (.xori rd rs1 imm) else none
  | .ori => if regsFit && immFits then some (.ori rd rs1 imm) else none
  | .andi => if regsFit && immFits then some (.andi rd rs1 imm) else none
  | .slli => if regsFit && shamtFits then some (.slli rd rs1 shamt 0#7) else none
  | .srli => if regsFit && shamtFits then some (.srli rd rs1 shamt) else none
  | .srai => if regsFit && shamtFits then some (.srai rd rs1 shamt) else none

/-- `NOP` (R69). -/
def Pseudo.nop : AsmLine := ⟨.addi, 0, 0, 0⟩

/-- `MV rd, rs` (R69). -/
def Pseudo.mv (rd rs : Nat) : AsmLine := ⟨.addi, rd, rs, 0⟩

/-- `LI rd, imm`, for an immediate of 12 bits (R69). -/
def Pseudo.li (rd : Nat) (imm : Int) : AsmLine := ⟨.addi, rd, 0, imm⟩

/-- `NOT rd, rs` (R69). -/
def Pseudo.not (rd rs : Nat) : AsmLine := ⟨.xori, rd, rs, -1⟩

/-- `SEQZ rd, rs` (R69). -/
def Pseudo.seqz (rd rs : Nat) : AsmLine := ⟨.sltiu, rd, rs, 1⟩

end Sys2Proof
end

