-- ==== Sys2Proof/Decode.lean ====
section
/-! DEFINITION. The field extractors, the five immediate decoders, the three-level decoder and the encoder of
30_encoding.md.

PRESUMED (the spec's own mark is "from general knowledge", 93_implementation_defined.md G1 to G3; log entry 5):
every selector number but the opcode `0010011` and ADDI's `funct3`. -/

namespace Sys2Proof

/-! ### Fields (R51) -/

/-- `inst[6:0]` -/
def opcodeOf (w : Word) : BitVec 7 := w.extractLsb' 0 7

/-- `inst[11:7]` -/
def rdOf (w : Word) : Reg := w.extractLsb' 7 5

/-- `inst[14:12]` -/
def funct3Of (w : Word) : BitVec 3 := w.extractLsb' 12 3

/-- `inst[19:15]` -/
def rs1Of (w : Word) : Reg := w.extractLsb' 15 5

/-- `inst[24:20]`; extracted, and a register index for no implemented instruction (10_state.md R14). -/
def rs2Of (w : Word) : Reg := w.extractLsb' 20 5

/-- `inst[31:25]` -/
def funct7Of (w : Word) : BitVec 7 := w.extractLsb' 25 7

/-! ### Immediates (R54 to R60, R71) -/

/-- I-type: `inst[31:20]`, sign-extended (R54). -/
def immI (w : Word) : Word := (w.extractLsb' 20 12).signExtend 32

/-- S-type: `inst[31:25] ++ inst[11:7]`, sign-extended (R55). No instruction consumes it (R71). -/
def immS (w : Word) : Word := (w.extractLsb' 25 7 ++ w.extractLsb' 7 5).signExtend 32

/-- B-type: `inst[31] ++ inst[7] ++ inst[30:25] ++ inst[11:8] ++ 0`, sign-extended (R56). Not consumed (R71). -/
def immB (w : Word) : Word :=
  (w.extractLsb' 31 1 ++ w.extractLsb' 7 1 ++ w.extractLsb' 25 6 ++ w.extractLsb' 8 4 ++ 0#1).signExtend 32

/-- U-type: `inst[31:12]` above twelve zeros (R57). Not consumed (R71). -/
def immU (w : Word) : Word := w.extractLsb' 12 20 ++ 0#12

/-- J-type: `inst[31] ++ inst[19:12] ++ inst[20] ++ inst[30:21] ++ 0`, sign-extended (R58). Not consumed (R71). -/
def immJ (w : Word) : Word :=
  (w.extractLsb' 31 1 ++ w.extractLsb' 12 8 ++ w.extractLsb' 20 1 ++ w.extractLsb' 21 10 ++ 0#1).signExtend 32

/-- The shift amount: the low five bits of the I-type immediate (R59). -/
def shamtOf (w : Word) : BitVec 5 := (immI w).extractLsb' 0 5

/-! ### The opcode map (R61 to R65, R129) -/

/-- The classes of major opcodes the spec names (43_unimplemented_classes.md R129). -/
inductive OpcodeClass where
  | opImm | load | store | branch | jal | jalr | lui | auipc | op | system | miscMem | other
  deriving DecidableEq, Repr

/-- Level one of the decode: the class of a major opcode (R61, R129). -/
def opcodeClass (op : BitVec 7) : OpcodeClass :=
  match op with
  | 0b0010011#7 => .opImm
  | 0b0000011#7 => .load
  | 0b0100011#7 => .store
  | 0b1100011#7 => .branch
  | 0b1101111#7 => .jal
  | 0b1100111#7 => .jalr
  | 0b0110111#7 => .lui
  | 0b0010111#7 => .auipc
  | 0b0110011#7 => .op
  | 0b1110011#7 => .system
  | 0b0001111#7 => .miscMem
  | _ => .other

/-- Why the decoder gives no instruction. On the machine each of the first two is the fault `InvalidInstruction`
(R65); the third is of the byte decoder alone, since a fetch always reads four bytes (R50). -/
inductive DecodeError where
  /-- The opcode's class has no handler and no row of the table (R123 to R127). -/
  | noHandler (cls : OpcodeClass)
  /-- OP-IMM, `funct3 = 101` and a `funct7` that selects neither right shift (R64, decision D19). -/
  | noRightShift (funct7 : BitVec 7)
  /-- Fewer than the four bytes of an instruction. -/
  | truncated
  deriving DecidableEq, Repr

/-- Level three, for `funct3 = 101` only (R64). -/
def decodeRightShift (w : Word) : Except DecodeError Instr :=
  match funct7Of w with
  | 0b0000000#7 => .ok (.srli (rdOf w) (rs1Of w) (shamtOf w))
  | 0b0100000#7 => .ok (.srai (rdOf w) (rs1Of w) (shamtOf w))
  | f => .error (.noRightShift f)

/-- Level two, within OP-IMM (R63). -/
def decodeOpImm (w : Word) : Except DecodeError Instr :=
  match funct3Of w with
  | 0b000#3 => .ok (.addi (rdOf w) (rs1Of w) (immI w))
  | 0b010#3 => .ok (.slti (rdOf w) (rs1Of w) (immI w))
  | 0b011#3 => .ok (.sltiu (rdOf w) (rs1Of w) (immI w))
  | 0b100#3 => .ok (.xori (rdOf w) (rs1Of w) (immI w))
  | 0b110#3 => .ok (.ori (rdOf w) (rs1Of w) (immI w))
  | 0b111#3 => .ok (.andi (rdOf w) (rs1Of w) (immI w))
  | 0b001#3 => .ok (.slli (rdOf w) (rs1Of w) (shamtOf w) (funct7Of w))
  | _ => decodeRightShift w

/-- The decoder of one instruction word (R61 to R65). It is total: every word is one of the nine instructions, a
word of the LOAD or STORE class, or refused by the name of its class. -/
def decodeWord (w : Word) : Except DecodeError Instr :=
  match opcodeClass (opcodeOf w) with
  | .opImm => decodeOpImm w
  | .load => .ok (.load (w.extractLsb' 7 25))
  | .store => .ok (.store (w.extractLsb' 7 25))
  | c => .error (.noHandler c)

/-- The word whose bytes, lowest address first, are `b0`, `b1`, `b2`, `b3` (20_memory.md R34). -/
def wordOfBytes (b0 b1 b2 b3 : Byte) : Word := b3 ++ b2 ++ b1 ++ b0

/-- The decoder on a run of bytes: the instruction of the first four and the bytes after it (R50). -/
def decode : List Byte → Except DecodeError (Instr × List Byte)
  | b0 :: b1 :: b2 :: b3 :: rest => (decodeWord (wordOfBytes b0 b1 b2 b3)).map (·, rest)
  | _ => .error .truncated

/-! ### The encoder (R52, R72) -/

/-- An I-format OP-IMM word: `imm[11:0] rs1 funct3 rd 0010011`. -/
def encodeI (funct3 : BitVec 3) (rd rs1 : Reg) (imm : Word) : Word :=
  imm.extractLsb' 0 12 ++ rs1 ++ funct3 ++ rd ++ 0b0010011#7

/-- An OP-IMM word of the shift variant: `funct7 shamt rs1 funct3 rd 0010011`. -/
def encodeShift (funct7 : BitVec 7) (funct3 : BitVec 3) (rd rs1 : Reg) (shamt : BitVec 5) : Word :=
  funct7 ++ shamt ++ rs1 ++ funct3 ++ rd ++ 0b0010011#7

/-- The word of an instruction (R72). -/
def encode : Instr → Word
  | .addi rd rs1 imm => encodeI 0b000#3 rd rs1 imm
  | .slti rd rs1 imm => encodeI 0b010#3 rd rs1 imm
  | .sltiu rd rs1 imm => encodeI 0b011#3 rd rs1 imm
  | .xori rd rs1 imm => encodeI 0b100#3 rd rs1 imm
  | .ori rd rs1 imm => encodeI 0b110#3 rd rs1 imm
  | .andi rd rs1 imm => encodeI 0b111#3 rd rs1 imm
  | .slli rd rs1 shamt ignored => encodeShift ignored 0b001#3 rd rs1 shamt
  | .srli rd rs1 shamt => encodeShift 0b0000000#7 0b101#3 rd rs1 shamt
  | .srai rd rs1 shamt => encodeShift 0b0100000#7 0b101#3 rd rs1 shamt
  | .load rest => rest ++ 0b0000011#7
  | .store rest => rest ++ 0b0100011#7

/-- The four bytes of a word, lowest address first (20_memory.md R34). -/
def bytesOfWord (w : Word) : List Byte :=
  [w.extractLsb' 0 8, w.extractLsb' 8 8, w.extractLsb' 16 8, w.extractLsb' 24 8]

/-- The bytes of an instruction as memory holds them. -/
def encodeBytes (i : Instr) : List Byte := bytesOfWord (encode i)

/-- The word that `nbits` bits of the opcode table's numbering give, every bit above them zero. -/
def tableWord (nbits w : Nat) : Word := BitVec.ofNat 32 (w % 2 ^ nbits)

/-- The instruction the decoder reads from the bytes of a table word, none where it refuses. -/
def decodeTableWord (nbits w : Nat) : Option Instr :=
  match decode (bytesOfWord (tableWord nbits w)) with
  | .ok (i, _) => some i
  | .error _ => none

end Sys2Proof
end

