-- ==== Sys2Proof/Config.lean ====
section
/-! DEFINITION. What an implementation of the unit fixes: the two open parameters of 00_scope.md R5.
The spec leaves no value undefined (93_implementation_defined.md, end of Part 1), so there is no free value here. -/

namespace Sys2Proof

/-- The open parameters of the unit (R5, R6; decisions D3, D4). They are arguments of the model: the
machine carries them in `State.cfg` and no step writes them (log entry 1). -/
structure Config where
  /-- `MEM_BASE`, the lowest valid byte address. -/
  memBase : Nat
  /-- `MEM_SIZE`, the capacity in bytes. -/
  memSize : Nat
  deriving DecidableEq, Repr

end Sys2Proof
end

