-- ==== Sys2Proof/Machine/Parameters.lean ====
section
/-! DEFINITION. The configuration and the register values `State.reset` takes. -/

namespace Sys2Proof.Machine

/-- The configuration of `State.reset`. DESIGN CHOICE (log entry 2): the spec leaves both parameters open (00_scope.md R5);
these are the values of its own test vectors (95_test_vectors.md section 2.8 and program P1). -/
def resetConfig : Config := { memBase := 0x00001000, memSize := 256 }

/-- `x1` to `x31` after reset, slot `i` holding `x(i+1)`: all zero but `x2`, one past the last valid byte address,
reduced modulo 2^32 (10_state.md R25, decision D28). -/
def resetGprs (c : Config) : Vector Word 31 :=
  (Vector.replicate 31 0#32).set 1 (BitVec.ofNat 32 (c.memBase + c.memSize))

/-- The program counter after reset (R25). -/
def resetPc (c : Config) : Word := BitVec.ofNat 32 c.memBase

end Sys2Proof.Machine
end

