-- ==== Sys2Proof/Machine/State.lean ====
section
/-! DEFINITION. The machine's state as plain data, the reasons a step can stop, and the state after reset
(10_state.md). -/

namespace Sys2Proof.Machine

/-- The two faults a step can raise (60_exceptions.md R130). They are states of the machine, `Status.faulted`, which
the raising step enters; the cause has no number (R135). -/
inductive FaultKind where
  /-- The fetched word has no handler (R131). -/
  | invalidInstruction
  /-- A memory access with a byte outside the memory (R132). -/
  | addressFault
  deriving DecidableEq, Repr

/-- The run status (10_state.md R18). -/
inductive Status where
  | running
  | halted
  | faulted (k : FaultKind)
  deriving DecidableEq, Repr

/-- The memory's bytes by absolute byte address: the listed ones, in rising order, none of them zero. An address not
listed reads as `0x00`, the value the spec gives every byte outside the image (20_memory.md R45). -/
abbrev Memory := List Host.Cell

/-- Why no step exists. Both are raised by `unitStep` alone, in a state whose status is final, and both are safe: the
spec gives a unit that is not `Running` no step at all (40_step_and_dispatch.md R80; 93 U1 "stuck"). No meaning of an
instruction answers with one: a fault an instruction raises is a next state, whose status is `Status.faulted`. -/
inductive Fault where
  /-- The status is `Halted`. Raised by `unitStep`; safe. -/
  | halted
  /-- The status is `Faulted(k)`. Raised by `unitStep`; safe. -/
  | stopped (k : FaultKind)
  deriving DecidableEq, Repr

/-- Requests the model has no meaning for. -/
inductive Refusal where
  /-- An instruction whose meaning is not written. No arm raises it any more; safe. -/
  | notModelled (mnemonic : String)
  /-- The configuration breaks 00_scope.md R6, of which "the spec says nothing" (93 U8 "refuse"). Raised by `unitStep`
  alone; safe. -/
  | badConfiguration
  deriving DecidableEq, Repr

/-- The whole state of the machine (10_state.md R10): the general registers, the program counter, the run status and the
memory, beside the configuration, which no step writes (log entry 1). -/
structure State where
  /-- `MEM_BASE` and `MEM_SIZE` (00_scope.md R5): configuration, not state; carried here since `step` has no other
  argument. -/
  cfg : Config
  /-- `x1` to `x31`, slot `i` holding `x(i+1)` (R11, R14). `x0` is hardwired and has no storage (R12). -/
  gprs : Vector Word 31
  /-- The program counter (R16). -/
  pc : Word
  /-- The run status (R18). -/
  status : Status
  /-- The memory (20_memory.md R30). -/
  mem : Memory
  deriving DecidableEq, Repr

/-- The state after reset under configuration `c` with memory `m` (R25, 70_reset_and_hazards.md R150, R151). -/
def State.resetWith (c : Config) (m : Memory) : State :=
  { cfg := c, gprs := resetGprs c, pc := resetPc c, status := .running, mem := m }

/-- The machine right after reset, with the empty image (log entry 2 for the configuration). -/
def State.reset : State := State.resetWith resetConfig []

end Sys2Proof.Machine
end

