-- ==== Sys2Proof/Machine/Ops.lean ====
section
/-! DEFINITION. The named operations over registers, memory, the program counter and the status. -/

namespace Sys2Proof.Machine

/-! ### Registers (10_state.md R11 to R14) -/

/-- The storage slot of a register other than `x0`. -/
def gprSlot (r : Reg) : Fin 31 := ⟨r.toNat - 1, by have := r.isLt; omega⟩

/-- `x[r]`: register 0 reads as zero in every state (R12). -/
def State.readReg (s : State) (r : Reg) : Word :=
  if r = 0#5 then 0#32 else s.gprs[gprSlot r]

/-- `x[r] <- v`: a write to register 0 is discarded (R13). -/
def State.writeReg (s : State) (r : Reg) (v : Word) : State :=
  if r = 0#5 then s else { s with gprs := s.gprs.set (gprSlot r) v }

/-! ### The program counter and the status -/

/-- Line 2 of the step: `pc <- pc + 4`, modulo 2^32 (10_state.md R17, 40_step_and_dispatch.md R82). -/
def State.advancePc (s : State) : State := { s with pc := s.pc + 4#32 }

/-- Taking an exception: `raise k` stops the step where it stands, sets the status and changes nothing else
(60_exceptions.md R133). Nothing is saved, there is no handler address (R137), and there is no return from it
(R140): only reset leaves `Faulted(k)`. -/
def State.raise (s : State) (k : FaultKind) : State := { s with status := .faulted k }

/-- Line 4 of the step, reached only when no line before it raised: the halt test on the advanced program counter
(40_step_and_dispatch.md R88, R81; decision D9). -/
def State.haltTest (s : State) : State :=
  if s.status = .running ∧ s.pc = 0#32 then { s with status := .halted } else s

/-! ### Memory as an array of bytes (20_memory.md R30, R34) -/

/-- Strictly rising addresses from `lo` on, no zero byte listed. -/
def Memory.wfFrom : Nat → Memory → Bool
  | _, [] => true
  | lo, (a, b) :: m => decide (lo ≤ a) && decide (b ≠ 0#8) && Memory.wfFrom (a + 1) m

/-- The canonical form of a memory, in which equal contents are equal data. -/
def Memory.wf (m : Memory) : Bool := Memory.wfFrom 0 m

/-- Every listed address lies at or above `lo` and below `hi`. -/
def Memory.within (m : Memory) (lo hi : Nat) : Bool :=
  m.all fun cell => decide (lo ≤ cell.1) && decide (cell.1 < hi)

/-- The byte at an address; `0x00` where none is listed (R45). -/
def Memory.readByte : Memory → Nat → Byte
  | [], _ => 0#8
  | (a', b) :: m, a => if a = a' then b else Memory.readByte m a

/-- The memory with `b` at address `a`. A zero byte is not listed, so the canonical form is kept. -/
def Memory.writeByte : Memory → Nat → Byte → Memory
  | [], a, b => if b = 0#8 then [] else [(a, b)]
  | (a', b') :: m, a, b =>
    if a < a' then
      if b = 0#8 then (a', b') :: m else (a, b) :: (a', b') :: m
    else if a = a' then
      if b = 0#8 then m else (a, b) :: m
    else (a', b') :: Memory.writeByte m a b

/-- The `n` bytes from address `a` on, lowest address first. -/
def Memory.readBytes (m : Memory) (a : Nat) : Nat → List Byte
  | 0 => []
  | n + 1 => m.readByte a :: Memory.readBytes m (a + 1) n

/-- The memory with a run of bytes written from address `a` on. -/
def Memory.writeBytes (m : Memory) (a : Nat) : List Byte → Memory
  | [] => m
  | b :: bs => Memory.writeBytes (m.writeByte a b) (a + 1) bs

/-- The unsigned value of bytes, least significant first (R34). -/
def leValue : List Byte → Nat
  | [] => 0
  | b :: bs => b.toNat + 256 * leValue bs

/-- The low `n` bytes of an integer, least significant first (R34, R37). -/
def leBytes : Nat → Int → List Byte
  | 0, _ => []
  | n + 1, v => BitVec.ofInt 8 v :: leBytes n (v / 256)

/-! ### The bus primitives (20_memory.md R35 to R39) -/

/-- The widths of an access: 8, 16, 32 and 64 bits, and no other (R35; 93 U7). -/
inductive AccessWidth where
  | byte | half | word | double
  deriving DecidableEq, Repr

/-- The number of bytes of an access. -/
def widthBytes : AccessWidth → Nat
  | .byte => 1
  | .half => 2
  | .word => 4
  | .double => 8

/-- All of the access's bytes are valid addresses; the sum is not reduced modulo 2^32 (R38). There is no alignment
condition (R39). -/
abbrev InRange (c : Config) (addr : Word) (n : Nat) : Prop :=
  c.memBase ≤ addr.toNat ∧ addr.toNat + n ≤ c.memBase + c.memSize

/-- `MemRead(addr, n)` (R36): the unsigned little-endian value, or the fault it raises. It changes no state. -/
def State.memRead (s : State) (addr : Word) (w : AccessWidth) : Except FaultKind Nat :=
  if InRange s.cfg addr (widthBytes w) then .ok (leValue (s.mem.readBytes addr.toNat (widthBytes w)))
  else .error .addressFault

/-- `MemWrite(addr, n, v)` (R37): the state with the low `8n` bits of the integer `v` stored, or the fault it raises. No
instruction performs it (R37, 43_unimplemented_classes.md R122). -/
def State.memWrite (s : State) (addr : Word) (w : AccessWidth) (v : Int) : Except FaultKind State :=
  if InRange s.cfg addr (widthBytes w) then
    .ok { s with mem := s.mem.writeBytes addr.toNat (leBytes (widthBytes w) v) }
  else .error .addressFault

/-- Line 1 of the step: `MemRead(pc, 4)` (40_step_and_dispatch.md R83). -/
def State.fetch (s : State) : Except FaultKind Word :=
  (s.memRead s.pc .word).map (BitVec.ofNat 32)

/-- The state with a word stored at the program counter, where the next fetch reads it; the state itself where a fetch
there would fault. -/
def State.placeAtPc (s : State) (w : Word) : State :=
  match s.memWrite s.pc .word w.toNat with
  | .ok t => t
  | .error _ => s

/-! ### What the outside sees (70_reset_and_hazards.md R161) -/

/-- The unit's only bus request of a step: a read of 32 bits at `pc` (20_memory.md R31). -/
def State.busRequest (s : State) : Word × AccessWidth := (s.pc, .word)

/-- The step result a state reports (40_step_and_dispatch.md R91). -/
inductive StepResult where
  | continue_
  | halt
  | fault (k : FaultKind)
  deriving DecidableEq, Repr

/-- The step's result, read off the state the step ended in (R91). -/
def State.result (s : State) : StepResult :=
  match s.status with
  | .running => .continue_
  | .halted => .halt
  | .faulted k => .fault k

end Sys2Proof.Machine
end

