-- ==== Sys2Proof/Machine/Operands.lean ====
section
/-! DEFINITION. The one operand shape of the implemented instructions, `rd ← f(rs1, imm)`
(40_step_and_dispatch.md R86). -/

namespace Sys2Proof.Machine

/-- Read `x[rs1]`, apply `f`, write `x[rd]`: the old value is read before the new one is written (R92), and nothing
else is touched. The handler cannot fault (R86). -/
def opImm (f : Word → Word) (rd rs1 : Reg) (s : State) : Host.Outcome State Fault Refusal :=
  .next (s.writeReg rd (f (s.readReg rs1)))

/-- A class without a handler raises `InvalidInstruction` and has no other effect (R89). -/
def noHandler (s : State) : Host.Outcome State Fault Refusal :=
  .next (s.raise .invalidInstruction)

end Sys2Proof.Machine
end

