-- ==== Sys2Proof/Machine/NoHandler.lean ====
section
/-! DEFINITION. The two classes of words that are dispatched and have no handler (43_unimplemented_classes.md). -/

namespace Sys2Proof.Machine

/-- A LOAD word: no memory read, no register written, `InvalidInstruction` (R121; 40_step_and_dispatch.md R89). -/
def execLoad (s : State) : Host.Outcome State Fault Refusal := noHandler s

/-- A STORE word: no memory write, `InvalidInstruction` (R122; 40_step_and_dispatch.md R89). -/
def execStore (s : State) : Host.Outcome State Fault Refusal := noHandler s

end Sys2Proof.Machine
end

