-- ==== Sys2Proof/Machine/Flags.lean ====
section
/-! DEFINITION. The unit has no flags (10_state.md R20): a comparison writes 0 or 1 to a general register. Here are the
two comparisons and that 0 or 1. -/

namespace Sys2Proof.Machine

/-- `c ? 0x00000001 : 0x00000000` (41_op_imm_arith.md R102, R103). -/
def truthWord (c : Bool) : Word := if c then 1#32 else 0#32

/-- `a <s b`: the signed readings compared over the full 32 bits, with no subtraction (00_scope.md R7, R107). -/
def ltSigned (a b : Word) : Bool := decide (a.toInt < b.toInt)

/-- `a <u b`: the unsigned readings compared (00_scope.md R7). -/
def ltUnsigned (a b : Word) : Bool := decide (a.toNat < b.toNat)

end Sys2Proof.Machine
end

