-- ==== Sys2Proof/Machine/OpImmArith.lean ====
section
/-! DEFINITION. The register-immediate arithmetic, compare and logic instructions (41_op_imm_arith.md). Each is the
handler called at line 3 of the step: `pc` is already advanced and is not touched (R100). -/

namespace Sys2Proof.Machine

/-- ADDI: `x[rd] <- x[rs1] + imm`, modulo 2^32 (R101, R107). -/
def execAddi (rd rs1 : Reg) (imm : Word) (s : State) : Host.Outcome State Fault Refusal :=
  opImm (fun a => a + imm) rd rs1 s

/-- SLTI: signed compare (R102). -/
def execSlti (rd rs1 : Reg) (imm : Word) (s : State) : Host.Outcome State Fault Refusal :=
  opImm (fun a => truthWord (ltSigned a imm)) rd rs1 s

/-- SLTIU: unsigned compare with the sign-extended immediate (R103, decision D26). -/
def execSltiu (rd rs1 : Reg) (imm : Word) (s : State) : Host.Outcome State Fault Refusal :=
  opImm (fun a => truthWord (ltUnsigned a imm)) rd rs1 s

/-- XORI: `x[rd] <- x[rs1] ^ imm` (R104). -/
def execXori (rd rs1 : Reg) (imm : Word) (s : State) : Host.Outcome State Fault Refusal :=
  opImm (fun a => a ^^^ imm) rd rs1 s

/-- ORI: `x[rd] <- x[rs1] | imm` (R105). -/
def execOri (rd rs1 : Reg) (imm : Word) (s : State) : Host.Outcome State Fault Refusal :=
  opImm (fun a => a ||| imm) rd rs1 s

/-- ANDI: `x[rd] <- x[rs1] & imm` (R106). -/
def execAndi (rd rs1 : Reg) (imm : Word) (s : State) : Host.Outcome State Fault Refusal :=
  opImm (fun a => a &&& imm) rd rs1 s

end Sys2Proof.Machine
end

