-- ==== Sys2Proof/Machine/OpImmShift.lean ====
section
/-! DEFINITION. The shift operators and the register-immediate shift instructions (42_op_imm_shift.md). -/

namespace Sys2Proof.Machine

/-- `v << k`: zeros enter at bit 0, bits leaving bit 31 are lost (R110). -/
def shiftLeft (v : Word) (k : BitVec 5) : Word := v <<< k.toNat

/-- `v >>u k`: zeros enter at bit 31 (R110). -/
def shiftRightLogical (v : Word) (k : BitVec 5) : Word := v >>> k.toNat

/-- `v >>s k`: copies of bit 31 enter at bit 31 (R110). -/
def shiftRightArith (v : Word) (k : BitVec 5) : Word := v.sshiftRight k.toNat

/-- SLLI: `x[rd] <- x[rs1] << shamt` (R111). -/
def execSlli (rd rs1 : Reg) (shamt : BitVec 5) (s : State) : Host.Outcome State Fault Refusal :=
  opImm (fun a => shiftLeft a shamt) rd rs1 s

/-- SRLI: `x[rd] <- x[rs1] >>u shamt` (R112). -/
def execSrli (rd rs1 : Reg) (shamt : BitVec 5) (s : State) : Host.Outcome State Fault Refusal :=
  opImm (fun a => shiftRightLogical a shamt) rd rs1 s

/-- SRAI: `x[rd] <- x[rs1] >>s shamt` (R113). -/
def execSrai (rd rs1 : Reg) (shamt : BitVec 5) (s : State) : Host.Outcome State Fault Refusal :=
  opImm (fun a => shiftRightArith a shamt) rd rs1 s

end Sys2Proof.Machine
end

