-- ==== Sys2Proof/WellFormed.lean ====
section
/-! DEFINITION. Which configurations and which instruction terms the spec gives a meaning and an encoding. -/

namespace Sys2Proof

/-- The constraints of 00_scope.md R6: `MEM_BASE` is a multiple of 4, `MEM_SIZE` is at least 1, and every valid
byte address fits in 32 bits. -/
def Config.wellFormed (c : Config) : Bool :=
  decide (c.memBase % 4 = 0) && decide (1 ≤ c.memSize) && decide (c.memBase + c.memSize ≤ 2 ^ 32)

/-- A decoded immediate is the sign extension of a 12-bit field: its signed reading is -2048 to 2047 (R54, R100). -/
def immFits (imm : Word) : Bool :=
  decide (-2048 ≤ imm.toInt) && decide (imm.toInt ≤ 2047)

/-- An instruction some word encodes. Register numbers, shift amounts and the unexamined bits fit by their types. -/
def Instr.wellFormed : Instr → Bool
  | .addi _ _ imm | .slti _ _ imm | .sltiu _ _ imm | .xori _ _ imm | .ori _ _ imm | .andi _ _ imm => immFits imm
  | .slli _ _ _ _ | .srli _ _ _ | .srai _ _ _ => true
  | .load _ | .store _ => true

end Sys2Proof
end

