-- ==== Sys2Proof/Machine/Cycle.lean ====
section
/-! DEFINITION. The step cycle: fetch, program-counter increment, execution, halt test (40_step_and_dispatch.md). -/

namespace Sys2Proof.Machine

/-- Line 3 of the step, `Execute(inst)`: the decoded instruction's meaning, or `InvalidInstruction` for a word the
decoder refuses (R85, R90). -/
def executeWord (w : Word) (s : State) : Host.Outcome State Fault Refusal :=
  match decodeWord w with
  | .ok i => exec i s
  | .error _ => noHandler s

/-- Line 4 of the step on what line 3 answered (R81, R88). -/
def endStep : Host.Outcome State Fault Refusal → Host.Outcome State Fault Refusal
  | .next s => .next s.haltTest
  | .fault r => .fault r
  | .refused r => .refused r

/-- The four lines of the step, taken in `Running` (R81). A fetch that faults ends it at line 1, before `pc` is
advanced. -/
def runningStep (s : State) : Host.Outcome State Fault Refusal :=
  match s.fetch with
  | .error k => .next (s.raise k)
  | .ok w => endStep (executeWord w s.advancePc)

/-- One step. A unit that is not `Running` has none (R80); a configuration the spec says nothing of is refused
(93 U8). -/
def unitStep (s : State) : Host.Outcome State Fault Refusal :=
  match s.status with
  | .halted => .fault .halted
  | .faulted k => .fault (.stopped k)
  | .running => if s.cfg.wellFormed then runningStep s else .refused .badConfiguration

end Sys2Proof.Machine
end

