-- ==== Sys2Proof/Machine/Step.lean ====
section
/-! DEFINITION. The machine's step, and placing an instruction where the next step fetches it. -/

namespace Sys2Proof.Machine

/-- One step of the unit (40_step_and_dispatch.md R80, R81). -/
def step (s : State) : Host.Outcome State Fault Refusal := unitStep s

/-- The state with the instruction of a table word stored at `pc`, in the memory's byte order. -/
def State.withFetchWord (s : State) (nbits w : Nat) : State := s.placeAtPc (tableWord nbits w)

end Sys2Proof.Machine
end

