-- ==== Sys2Proof/Machine/Launch.lean ====
section
/-! DEFINITION. What the host does before a run and to end one: the image load and reset (20_memory.md R45, R46;
70_reset_and_hazards.md R150 to R152, R162). No step calls these. -/

namespace Sys2Proof.Machine

/-- Why no launch state exists. -/
inductive LaunchError where
  /-- The image is longer than the memory (R46, 60_exceptions.md R134). -/
  | imageTooLarge
  /-- The configuration breaks 00_scope.md R6 (93 U8). -/
  | badConfiguration
  deriving DecidableEq, Repr

/-- The memory with the image's bytes verbatim from `MEM_BASE` on and zero above them; its capacity stays `MEM_SIZE`
(R45). -/
def loadImage (c : Config) (image : List Byte) : Except LaunchError Memory :=
  if image.length ≤ c.memSize then .ok (Memory.writeBytes [] c.memBase image) else .error .imageTooLarge

/-- The state a run starts from: parameters, zeroed memory, image load, reset, in that order (R152). -/
def launch (c : Config) (image : List Byte) : Except LaunchError State :=
  if c.wellFormed then (loadImage c image).map (State.resetWith c) else .error .badConfiguration

/-- Reset of a used unit: a fresh construction with the same parameters, which leaves the memory as it is
(R150, R151, R162). -/
def State.applyReset (s : State) : State := State.resetWith s.cfg s.mem

end Sys2Proof.Machine
end

