-- ==== Sys2Proof/Safety.lean ====
section
/-! DEFINITION. The terms claims are stated in: what a handler leaves alone, what every state of a run satisfies, and
the readings of the state the spec speaks of. -/

namespace Sys2Proof.Machine

/-- `n` steps, stopping where there is none (60_exceptions.md R145; the fuel is the driving loop's, 70 R156). -/
def runSteps : Nat → State → Host.Outcome State Fault Refusal
  | 0, s => .next s
  | n + 1, s =>
    match step s with
    | .next t => runSteps n t
    | .fault r => .fault r
    | .refused r => .refused r

/-- The match and mask of the nine instructions, as 30_encoding.md R72 tabulates them. -/
def handlerPatterns : List (Word × Word) :=
  [(0x00000013#32, 0x0000707F#32), (0x00002013#32, 0x0000707F#32), (0x00003013#32, 0x0000707F#32),
   (0x00004013#32, 0x0000707F#32), (0x00006013#32, 0x0000707F#32), (0x00007013#32, 0x0000707F#32),
   (0x00001013#32, 0x0000707F#32), (0x00005013#32, 0xFE00707F#32), (0x40005013#32, 0xFE00707F#32)]

/-- The word matches one of the nine patterns, so it has a handler (R65, R72). It does not mention the decoder. -/
def hasHandler (w : Word) : Bool := handlerPatterns.any fun p => w &&& p.2 == p.1

/-- The byte the machine reads at an address, or the fault. -/
def State.byteAt (s : State) (a : Word) : Except FaultKind Nat := s.memRead a .byte

/-- Everything but the registers is as before: program counter, status, configuration, and every byte of memory. -/
def SameOutsideRegs (s t : State) : Prop :=
  t.pc = s.pc ∧ t.status = s.status ∧ t.cfg = s.cfg ∧ ∀ a, t.byteAt a = s.byteAt a

/-- What the handler of an instruction with destination `rd` leaves alone (40_step_and_dispatch.md R86): every other
register and everything outside the registers. -/
def SameExcept (rd : Reg) (s t : State) : Prop :=
  (∀ r, r ≠ rd → t.readReg r = s.readReg r) ∧ SameOutsideRegs s t

/-- Only the status may differ. -/
def SameButStatus (s t : State) : Prop :=
  (∀ r, t.readReg r = s.readReg r) ∧ t.pc = s.pc ∧ t.cfg = s.cfg ∧ ∀ a, t.byteAt a = s.byteAt a

/-- The memory is canonical and lists no address outside the memory. -/
def State.MemOk (s : State) : Prop :=
  s.mem.wf = true ∧ s.mem.within s.cfg.memBase (s.cfg.memBase + s.cfg.memSize) = true

/-- What the status says about where the program counter is (R88, R132, R138): a running unit's is inside the memory or
at the first word that is not wholly inside it; a halted unit's has wrapped to 0 at the end of a memory that ends at
2^32; after an `AddressFault` it is at the word that could not be fetched; after an `InvalidInstruction` it is just past
a word that has no handler. -/
def State.PhaseOk (s : State) : Prop :=
  match s.status with
  | .running => s.cfg.memBase ≤ s.pc.toNat ∧ s.pc.toNat ≤ s.cfg.memBase + s.cfg.memSize
  | .halted => s.pc = 0#32 ∧ s.cfg.memBase + s.cfg.memSize = 2 ^ 32
  | .faulted .addressFault =>
    s.cfg.memBase ≤ s.pc.toNat ∧ s.pc.toNat ≤ s.cfg.memBase + s.cfg.memSize ∧
      s.cfg.memBase + s.cfg.memSize < s.pc.toNat + 4
  | .faulted .invalidInstruction =>
    ∃ v, s.memRead (s.pc - 4#32) .word = .ok v ∧ hasHandler (BitVec.ofNat 32 v) = false

/-- The invariant of every run: a configuration of 00_scope.md R6, a canonical memory, an aligned program counter
(10_state.md R16), and a program counter where the status says it is. -/
def State.Inv (s : State) : Prop :=
  s.cfg.wellFormed = true ∧ s.MemOk ∧ s.pc.toNat % 4 = 0 ∧ s.PhaseOk

end Sys2Proof.Machine
end

