-- ==== Sys2Proof/Certificates/Slice0/Obligations.lean ====
section
/-! DEFINITION. The statements for the provers, each made from the rules of spec/ its docstring names. -/

open Sys2Proof Sys2Proof.Machine

/-! ### Encoding (30_encoding.md) -/

/-- Some words of the spec's own test vectors decode to the instructions they spell (95_test_vectors.md sections 1, 2.1,
2.4, 2.5, 2.8). The selector numbers are the spec's from general knowledge (log entry 5). -/
def Obligations.SampleWordsDecode : Prop :=
  decodeWord 0x00100093#32 = .ok (.addi 1#5 0#5 1#32) ∧
  decodeWord 0xFFF32293#32 = .ok (.slti 5#5 6#5 0xFFFFFFFF#32) ∧
  decodeWord 0x80033293#32 = .ok (.sltiu 5#5 6#5 0xFFFFF800#32) ∧
  decodeWord 0xFFF0C393#32 = .ok (.xori 7#5 1#5 0xFFFFFFFF#32) ∧
  decodeWord 0x67836293#32 = .ok (.ori 5#5 6#5 0x00000678#32) ∧
  decodeWord 0x7FF27493#32 = .ok (.andi 9#5 4#5 0x000007FF#32) ∧
  decodeWord 0x01F09513#32 = .ok (.slli 10#5 1#5 31#5 0#7) ∧
  decodeWord 0xFE409513#32 = .ok (.slli 10#5 1#5 4#5 0b1111111#7) ∧
  decodeWord 0x00125593#32 = .ok (.srli 11#5 4#5 1#5) ∧
  decodeWord 0x40125613#32 = .ok (.srai 12#5 4#5 1#5) ∧
  decodeWord 0x00012283#32 = .ok (.load 0x00000245#25) ∧
  decodeWord 0x00512023#32 = .ok (.store 0x0000A240#25) ∧
  decodeWord 0x20125613#32 = .error (.noRightShift 0b0010000#7)

/-- R51: the seven fields are the shifts and masks of the word, for every word, and `rs2` and `shamt` are the same
bits. -/
def Obligations.FieldsAreShiftsAndMasks : Prop :=
  ∀ w : Word,
    (opcodeOf w).setWidth 32 = w &&& 0x7F#32 ∧
    (rdOf w).setWidth 32 = (w >>> 7) &&& 0x1F#32 ∧
    (funct3Of w).setWidth 32 = (w >>> 12) &&& 0x7#32 ∧
    (rs1Of w).setWidth 32 = (w >>> 15) &&& 0x1F#32 ∧
    (rs2Of w).setWidth 32 = (w >>> 20) &&& 0x1F#32 ∧
    (funct7Of w).setWidth 32 = (w >>> 25) &&& 0x7F#32 ∧
    (shamtOf w).setWidth 32 = (w >>> 20) &&& 0x1F#32 ∧
    rs2Of w = shamtOf w

/-- R54: the I-type immediate is `inst[31:20]` under twenty copies of `inst[31]`, equivalently the word shifted right
arithmetically by 20; it is -2048 to 2047, and 1 for the spec's word `0x00100093`; the six arithmetic, compare and logic
instructions take it, and the right shifts take its low five bits. -/
def Obligations.ImmediateIBits : Prop :=
  (∀ w : Word, (∀ k, k < 12 → (immI w).getLsbD k = w.getLsbD (20 + k)) ∧
    (∀ k, 12 ≤ k → k < 32 → (immI w).getLsbD k = w.getLsbD 31) ∧
    (immI w).toInt = w.toInt / 2 ^ 20 ∧ -2048 ≤ (immI w).toInt ∧ (immI w).toInt ≤ 2047) ∧
  immI 0x00100093#32 = 1#32 ∧
  (∀ w rd rs1 imm, (decodeWord w = .ok (.addi rd rs1 imm) ∨ decodeWord w = .ok (.slti rd rs1 imm) ∨
    decodeWord w = .ok (.sltiu rd rs1 imm) ∨ decodeWord w = .ok (.xori rd rs1 imm) ∨
    decodeWord w = .ok (.ori rd rs1 imm) ∨ decodeWord w = .ok (.andi rd rs1 imm)) → imm = immI w) ∧
  (∀ w rd rs1 k, (decodeWord w = .ok (.srli rd rs1 k) ∨ decodeWord w = .ok (.srai rd rs1 k)) →
    k = (immI w).setWidth 5)

/-- R55: the S-type immediate takes bits 11 to 5 from `inst[31:25]` and bits 4 to 0 from `inst[11:7]`, sign-extended. -/
def Obligations.ImmediateSBits : Prop :=
  ∀ w : Word, (∀ k, k < 5 → (immS w).getLsbD k = w.getLsbD (7 + k)) ∧
    (∀ k, k < 7 → (immS w).getLsbD (5 + k) = w.getLsbD (25 + k)) ∧
    (∀ k, 12 ≤ k → k < 32 → (immS w).getLsbD k = w.getLsbD 31) ∧
    -2048 ≤ (immS w).toInt ∧ (immS w).toInt ≤ 2047

/-- R56: the B-type immediate's thirteen bits, the lowest zero, sign-extended; it is even and -4096 to 4094. -/
def Obligations.ImmediateBBits : Prop :=
  ∀ w : Word, (immB w).getLsbD 0 = false ∧
    (∀ k, k < 4 → (immB w).getLsbD (1 + k) = w.getLsbD (8 + k)) ∧
    (∀ k, k < 6 → (immB w).getLsbD (5 + k) = w.getLsbD (25 + k)) ∧
    (immB w).getLsbD 11 = w.getLsbD 7 ∧
    (∀ k, 12 ≤ k → k < 32 → (immB w).getLsbD k = w.getLsbD 31) ∧
    (immB w).toInt % 2 = 0 ∧ -4096 ≤ (immB w).toInt ∧ (immB w).toInt ≤ 4094

/-- R57: the U-type immediate is `inst[31:12]` above twelve zeros, that is the word masked with `0xFFFFF000`. -/
def Obligations.ImmediateUBits : Prop :=
  ∀ w : Word, immU w = w &&& 0xFFFFF000#32 ∧ (∀ k, k < 12 → (immU w).getLsbD k = false) ∧
    (∀ k, 12 ≤ k → k < 32 → (immU w).getLsbD k = w.getLsbD k)

/-- R58: the J-type immediate's twenty-one bits, the lowest zero, sign-extended; it is even and -1048576 to 1048574. -/
def Obligations.ImmediateJBits : Prop :=
  ∀ w : Word, (immJ w).getLsbD 0 = false ∧
    (∀ k, k < 10 → (immJ w).getLsbD (1 + k) = w.getLsbD (21 + k)) ∧
    (immJ w).getLsbD 11 = w.getLsbD 20 ∧
    (∀ k, k < 8 → (immJ w).getLsbD (12 + k) = w.getLsbD (12 + k)) ∧
    (∀ k, 20 ≤ k → k < 32 → (immJ w).getLsbD k = w.getLsbD 31) ∧
    (immJ w).toInt % 2 = 0 ∧ -1048576 ≤ (immJ w).toInt ∧ (immJ w).toInt ≤ 1048574

/-- 30_encoding.md section 2: the shift amount is the low five bits of the I-type immediate, that is `inst[24:20]`, read unsigned 0 to 31; a
decoded shift takes its amount there and nothing of it from `inst[31:25]`, which is the `funct7` selector; the bits of it
that SLLI ignores make no difference to its effect. Derived: the `funct7` numbers of the two right shifts are the spec's
from general knowledge (section 3, log entry 5). -/
def Obligations.ShiftAmountIsLowImmediateBits : Prop :=
  (∀ w : Word, shamtOf w = (immI w).setWidth 5 ∧ (shamtOf w).toNat = w.toNat / 2 ^ 20 % 32 ∧ (shamtOf w).toNat ≤ 31) ∧
  (∀ w rd rs1 k g, decodeWord w = .ok (.slli rd rs1 k g) → k = shamtOf w ∧ g = funct7Of w) ∧
  (∀ w rd rs1 k, decodeWord w = .ok (.srli rd rs1 k) → k = shamtOf w ∧ funct7Of w = 0b0000000#7) ∧
  (∀ w rd rs1 k, decodeWord w = .ok (.srai rd rs1 k) → k = shamtOf w ∧ funct7Of w = 0b0100000#7) ∧
  (∀ rd rs1 k g g' s, exec (.slli rd rs1 k g) s = exec (.slli rd rs1 k g') s)

/-- R60: every immediate decoder returns the sign extension of its format's field, and in every format the sign bit is
`inst[31]`. -/
def Obligations.ImmediatesSignExtend : Prop :=
  ∀ w : Word,
    immI w = ((immI w).setWidth 12).signExtend 32 ∧ immS w = ((immS w).setWidth 12).signExtend 32 ∧
    immB w = ((immB w).setWidth 13).signExtend 32 ∧ immJ w = ((immJ w).setWidth 21).signExtend 32 ∧
    (immI w).msb = w.msb ∧ (immS w).msb = w.msb ∧ (immB w).msb = w.msb ∧ (immU w).msb = w.msb ∧ (immJ w).msb = w.msb

/-- The opcode table, row by row: a word matches a row's mask and match exactly when the decoder answers that row's
instruction, with its operands in the fields of R51, R54 and R59. Derived: the selector numbers are the spec's from
general knowledge (30_encoding.md R63, R64, R72; log entry 5), and that SLLI's mask leaves out `inst[31:25]` is decision
D18. -/
def Obligations.DecodeMatchesOpcodeTable : Prop :=
  ∀ w : Word,
    (w &&& 0x0000707F#32 = 0x00000013#32 ↔ decodeWord w = .ok (.addi (rdOf w) (rs1Of w) (immI w))) ∧
    (w &&& 0x0000707F#32 = 0x00002013#32 ↔ decodeWord w = .ok (.slti (rdOf w) (rs1Of w) (immI w))) ∧
    (w &&& 0x0000707F#32 = 0x00003013#32 ↔ decodeWord w = .ok (.sltiu (rdOf w) (rs1Of w) (immI w))) ∧
    (w &&& 0x0000707F#32 = 0x00004013#32 ↔ decodeWord w = .ok (.xori (rdOf w) (rs1Of w) (immI w))) ∧
    (w &&& 0x0000707F#32 = 0x00006013#32 ↔ decodeWord w = .ok (.ori (rdOf w) (rs1Of w) (immI w))) ∧
    (w &&& 0x0000707F#32 = 0x00007013#32 ↔ decodeWord w = .ok (.andi (rdOf w) (rs1Of w) (immI w))) ∧
    (w &&& 0x0000707F#32 = 0x00001013#32 ↔ decodeWord w = .ok (.slli (rdOf w) (rs1Of w) (shamtOf w) (funct7Of w))) ∧
    (w &&& 0xFE00707F#32 = 0x00005013#32 ↔ decodeWord w = .ok (.srli (rdOf w) (rs1Of w) (shamtOf w))) ∧
    (w &&& 0xFE00707F#32 = 0x40005013#32 ↔ decodeWord w = .ok (.srai (rdOf w) (rs1Of w) (shamtOf w))) ∧
    (w &&& 0x0000007F#32 = 0x00000003#32 ↔ ∃ rest, decodeWord w = .ok (.load rest)) ∧
    (w &&& 0x0000007F#32 = 0x00000023#32 ↔ ∃ rest, decodeWord w = .ok (.store rest))

/-- R65: a word that matches none of the nine patterns is illegal, and those are the words whose opcode is not `0010011`
and those of it with `funct3` 101 and a `funct7` other than the two; an illegal word, all zeros and all ones among them,
raises `InvalidInstruction` and changes nothing but the status; every other word is one of the nine instructions. -/
def Obligations.IllegalWordsAreTheRest : Prop :=
  (∀ w : Word, hasHandler w = false ↔
    (opcodeOf w ≠ 0b0010011#7 ∨ (funct3Of w = 0b101#3 ∧ funct7Of w ≠ 0b0000000#7 ∧ funct7Of w ≠ 0b0100000#7))) ∧
  (∀ (w : Word) (s : State), hasHandler w = false →
    ∃ t, executeWord w s = .next t ∧ t.status = .faulted .invalidInstruction ∧ SameButStatus s t) ∧
  (∀ w : Word, hasHandler w = true → ∃ i, decodeWord w = .ok i ∧ i.implemented = true) ∧
  hasHandler 0x00000000#32 = false ∧ hasHandler 0xFFFFFFFF#32 = false

/-- For every well-formed instruction, decoding its word gives it back with every operand, and so does decoding its bytes
with any bytes after them, which are returned. -/
def Obligations.EncodeThenDecodeIsIdentity : Prop :=
  ∀ i : Instr, i.wellFormed = true →
    decodeWord (encode i) = .ok i ∧ ∀ rest, decode (encodeBytes i ++ rest) = .ok (i, rest)

/-- Every word the decoder accepts is the encoding of a well-formed instruction, and of that one only: no bit of an
accepted word is dropped. -/
def Obligations.DecodeThenEncodeIsIdentity : Prop :=
  ∀ (w : Word) (i : Instr), decodeWord w = .ok i → i.wellFormed = true ∧ encode i = w

/-- R68 (decision D20): an assembler line is accepted exactly when its operands are in range, and then the instruction's
word is an OP-IMM word with the `funct3` of the line's mnemonic, and holds its registers, its immediate's value or its
shift amount, and zeros or `0100000` above a shift amount. The selector numbers are the spec's from general knowledge (log
entry 5); a line is operands and not text (log entry 14). -/
def Obligations.AssemblerLineRangesAndFields : Prop :=
  (∀ l : AsmLine, l.assemble.isSome = true ↔ (l.rd < 32 ∧ l.rs1 < 32 ∧
    if l.mnemonic = .slli ∨ l.mnemonic = .srli ∨ l.mnemonic = .srai then 0 ≤ l.operand ∧ l.operand ≤ 31
    else -2048 ≤ l.operand ∧ l.operand ≤ 2047)) ∧
  (∀ (l : AsmLine) (i : Instr), l.assemble = some i →
    i.wellFormed = true ∧ opcodeOf (encode i) = 0b0010011#7 ∧
    (funct3Of (encode i) = match l.mnemonic with
      | .addi => 0b000#3
      | .slli => 0b001#3
      | .slti => 0b010#3
      | .sltiu => 0b011#3
      | .xori => 0b100#3
      | .srli | .srai => 0b101#3
      | .ori => 0b110#3
      | .andi => 0b111#3) ∧
    (rdOf (encode i)).toNat = l.rd ∧ (rs1Of (encode i)).toNat = l.rs1 ∧
    if l.mnemonic = .slli ∨ l.mnemonic = .srli ∨ l.mnemonic = .srai then
      (shamtOf (encode i)).toNat = l.operand ∧
        funct7Of (encode i) = if l.mnemonic = .srai then 0b0100000#7 else 0b0000000#7
    else (immI (encode i)).toInt = l.operand)

/-! ### The nine instructions (41_op_imm_arith.md, 42_op_imm_shift.md)

Each says that the instruction answers a next state for every state and every operand, the value of its destination, and
that nothing else changed. -/

/-- R101: a word with match `0x00000013` under mask `0x0000707F` is ADDI with the fields' operands; ADDI writes the sum
modulo 2^32, writes nothing where `rd` is `x0`, and cannot fault. -/
def Obligations.AddiMeaning : Prop :=
  (∀ w : Word, w &&& 0x0000707F#32 = 0x00000013#32 → decodeWord w = .ok (.addi (rdOf w) (rs1Of w) (immI w))) ∧
  ∀ (rd rs1 : Reg) (imm : Word) (s : State), ∃ t, exec (.addi rd rs1 imm) s = .next t ∧
    (t.readReg rd).toNat = (if rd = 0#5 then 0 else ((s.readReg rs1).toNat + imm.toNat) % 2 ^ 32) ∧ SameExcept rd s t

/-- SLTI writes 1 where the signed reading of the source is below that of the immediate, else 0. -/
def Obligations.SltiMeaning : Prop :=
  ∀ (rd rs1 : Reg) (imm : Word) (s : State), ∃ t, exec (.slti rd rs1 imm) s = .next t ∧
    (t.readReg rd).toNat = (if rd = 0#5 then 0 else if (s.readReg rs1).toInt < imm.toInt then 1 else 0) ∧
    SameExcept rd s t

/-- SLTIU writes 1 where the unsigned reading of the source is below that of the sign-extended immediate, else 0. -/
def Obligations.SltiuMeaning : Prop :=
  ∀ (rd rs1 : Reg) (imm : Word) (s : State), ∃ t, exec (.sltiu rd rs1 imm) s = .next t ∧
    (t.readReg rd).toNat = (if rd = 0#5 then 0 else if (s.readReg rs1).toNat < imm.toNat then 1 else 0) ∧
    SameExcept rd s t

/-- XORI writes, bit by bit, whether the source and the immediate differ. -/
def Obligations.XoriMeaning : Prop :=
  ∀ (rd rs1 : Reg) (imm : Word) (s : State), ∃ t, exec (.xori rd rs1 imm) s = .next t ∧
    (∀ k, k < 32 → ((t.readReg rd).getLsbD k = true ↔
      rd ≠ 0#5 ∧ (s.readReg rs1).getLsbD k ≠ imm.getLsbD k)) ∧ SameExcept rd s t

/-- ORI writes, bit by bit, whether the source or the immediate has the bit. -/
def Obligations.OriMeaning : Prop :=
  ∀ (rd rs1 : Reg) (imm : Word) (s : State), ∃ t, exec (.ori rd rs1 imm) s = .next t ∧
    (∀ k, k < 32 → ((t.readReg rd).getLsbD k = true ↔
      rd ≠ 0#5 ∧ ((s.readReg rs1).getLsbD k = true ∨ imm.getLsbD k = true))) ∧ SameExcept rd s t

/-- ANDI writes, bit by bit, whether the source and the immediate both have the bit. -/
def Obligations.AndiMeaning : Prop :=
  ∀ (rd rs1 : Reg) (imm : Word) (s : State), ∃ t, exec (.andi rd rs1 imm) s = .next t ∧
    (∀ k, k < 32 → ((t.readReg rd).getLsbD k = true ↔
      rd ≠ 0#5 ∧ (s.readReg rs1).getLsbD k = true ∧ imm.getLsbD k = true)) ∧ SameExcept rd s t

/-- SLLI, whatever the ignored bits, writes the unsigned source times `2^shamt`, modulo 2^32 (decisions D13, D18). -/
def Obligations.SlliMeaning : Prop :=
  ∀ (rd rs1 : Reg) (shamt : BitVec 5) (ignored : BitVec 7) (s : State), ∃ t,
    exec (.slli rd rs1 shamt ignored) s = .next t ∧
    (t.readReg rd).toNat = (if rd = 0#5 then 0 else (s.readReg rs1).toNat * 2 ^ shamt.toNat % 2 ^ 32) ∧
    SameExcept rd s t

/-- SRLI writes the unsigned source divided by `2^shamt`, rounded down. -/
def Obligations.SrliMeaning : Prop :=
  ∀ (rd rs1 : Reg) (shamt : BitVec 5) (s : State), ∃ t, exec (.srli rd rs1 shamt) s = .next t ∧
    (t.readReg rd).toNat = (if rd = 0#5 then 0 else (s.readReg rs1).toNat / 2 ^ shamt.toNat) ∧ SameExcept rd s t

/-- SRAI writes the signed source divided by `2^shamt`, rounded toward minus infinity. -/
def Obligations.SraiMeaning : Prop :=
  ∀ (rd rs1 : Reg) (shamt : BitVec 5) (s : State), ∃ t, exec (.srai rd rs1 shamt) s = .next t ∧
    (t.readReg rd).toInt = (if rd = 0#5 then 0 else Int.fdiv (s.readReg rs1).toInt (2 ^ shamt.toNat)) ∧
    SameExcept rd s t

/-- R86: each of the nine has the shape `rd ← f(rs1, imm)`. It answers a next state in every state; the value it writes is
one function of the source register's value, the same in every state; it writes nothing else, and cannot fault. -/
def Obligations.HandlersHaveOneShape : Prop :=
  ∀ i : Instr, i.implemented = true → ∃ (rd rs1 : Reg) (f : Word → Word), i.dest = some rd ∧ i.source = some rs1 ∧
    ∀ s : State, ∃ t, exec i s = .next t ∧
      t.readReg rd = (if rd = 0#5 then 0#32 else f (s.readReg rs1)) ∧ SameExcept rd s t

/-! ### The two classes without a handler (43_unimplemented_classes.md) -/

/-- R121 (decision D14): every word of opcode `0000011` is of the LOAD class; it raises `InvalidInstruction`, in every
state and whatever its other bits, and no register and no byte of memory changes. -/
def Obligations.LoadClassRaises : Prop :=
  (∀ w : Word, opcodeOf w = 0b0000011#7 → ∃ rest, decodeWord w = .ok (.load rest)) ∧
  ∀ (rest : BitVec 25) (s : State), ∃ t, exec (.load rest) s = .next t ∧
    t.status = .faulted .invalidInstruction ∧ SameButStatus s t

/-- R122 (decision D14): every word of opcode `0100011` is of the STORE class; it raises `InvalidInstruction`, in every
state and whatever its other bits, and no register and no byte of memory changes. -/
def Obligations.StoreClassRaises : Prop :=
  (∀ w : Word, opcodeOf w = 0b0100011#7 → ∃ rest, decodeWord w = .ok (.store rest)) ∧
  ∀ (rest : BitVec 25) (s : State), ∃ t, exec (.store rest) s = .next t ∧
    t.status = .faulted .invalidInstruction ∧ SameButStatus s t

/-- The example word of each class of R129 without a handler raises `InvalidInstruction`. The opcode numbers are the
spec's from general knowledge (log entry 5). -/
def Obligations.NamedClassesRaise : Prop :=
  ∀ w ∈ [0x00012283#32, 0x00512023#32, 0x00000063#32, 0x0000006F#32, 0x00008067#32, 0x123450B7#32, 0x00000097#32,
      0x002081B3#32, 0x00000073#32, 0x00100073#32, 0x0FF0000F#32, 0x00000000#32, 0xFFFFFFFF#32],
    ∀ s : State, executeWord w s = .next (s.raise .invalidInstruction)

/-! ### Registers (10_state.md) -/

/-- R12: register 0 returns `0x00000000` at every read, in every state, at reset and after any instruction or step. -/
def Obligations.RegisterZeroReadsZero : Prop :=
  (∀ s : State, s.readReg 0#5 = 0x00000000#32) ∧ State.reset.readReg 0#5 = 0x00000000#32 ∧
  (∀ s t : State, step s = .next t → t.readReg 0#5 = 0x00000000#32) ∧
  (∀ (i : Instr) (s t : State), exec i s = .next t → t.readReg 0#5 = 0x00000000#32)

/-- R66: an implemented instruction with `rd = x0` is executed and its result discarded: stepping it changes the program
counter, by 4 (40_step_and_dispatch.md R81, R82), and where that makes it 0 the status (R88, decision D9), and nothing
else. -/
def Obligations.ZeroDestinationOnlyAdvances : Prop :=
  ∀ (s : State) (w : Word), s.status = .running → s.cfg.wellFormed = true → s.fetch = .ok w →
    hasHandler w = true → rdOf w = 0#5 →
    step s = .next { s with
      pc := s.pc + 4#32, status := if s.pc + 4#32 = 0#32 then .halted else .running }

/-- A step changes no register but the `rd` of a word that has a handler (10_state.md R14). -/
def Obligations.StepWritesOnlyTheDestination : Prop :=
  ∀ (s t : State) (r : Reg), step s = .next t → t.readReg r ≠ s.readReg r →
    ∃ w, s.fetch = .ok w ∧ hasHandler w = true ∧ r = rdOf w

/-! ### The step (40_step_and_dispatch.md) -/

/-- When the word at the program counter decodes to an instruction, the step is that instruction's meaning on the state
with the program counter moved past the word, and then the halt test where it did not raise (R81, R85). -/
def Obligations.StepRunsTheDecodedInstruction : Prop :=
  ∀ (s : State) (w : Word) (i : Instr), s.status = .running → s.cfg.wellFormed = true → s.fetch = .ok w →
    decodeWord w = .ok i →
    i.wellFormed = true ∧
    step s = match exec i { s with pc := s.pc + 4#32 } with
      | .next t => .next (if t.status = .running ∧ t.pc = 0#32 then { t with status := .halted } else t)
      | .fault r => .fault r
      | .refused r => .refused r

/-- R34: byte order is little-endian for fetch, load and store alike: byte `k` of a fetched word, of a value read and of
a value stored is the byte at the address plus `k`. -/
def Obligations.ByteOrderIsLittleEndian : Prop :=
  (∀ (s : State) (w : Word), s.cfg.wellFormed = true → s.fetch = .ok w →
    ∀ k, k < 4 → s.byteAt (s.pc + BitVec.ofNat 32 k) = .ok (w.extractLsb' (8 * k) 8).toNat) ∧
  (∀ (s : State) (addr : Word) (n : AccessWidth) (v : Nat), s.cfg.wellFormed = true → s.memRead addr n = .ok v →
    ∀ k, k < widthBytes n → s.byteAt (addr + BitVec.ofNat 32 k) = .ok (v / 256 ^ k % 256)) ∧
  (∀ (s t : State) (addr : Word) (n : AccessWidth) (v : Nat), s.cfg.wellFormed = true → s.mem.wf = true →
    s.memWrite addr n v = .ok t →
    ∀ k, k < widthBytes n → t.byteAt (addr + BitVec.ofNat 32 k) = .ok (v / 256 ^ k % 256))

/-- R83: line 1 of the step reads the four bytes at `pc`, least significant first, where all four are inside the memory;
where they are not, a running unit raises `AddressFault`: nothing but the status changes, the program counter included; and
in no other case does a step raise it. The fetch stays 4-byte aligned: it starts so and every step keeps it. -/
def Obligations.FetchReadsTheWordOrFaults : Prop :=
  (∀ s : State, s.cfg.wellFormed = true →
    (s.cfg.memBase ≤ s.pc.toNat ∧ s.pc.toNat + 4 ≤ s.cfg.memBase + s.cfg.memSize) →
    ∃ b0 b1 b2 b3 : Nat, s.byteAt s.pc = .ok b0 ∧ s.byteAt (s.pc + 1#32) = .ok b1 ∧
      s.byteAt (s.pc + 2#32) = .ok b2 ∧ s.byteAt (s.pc + 3#32) = .ok b3 ∧
      s.fetch = .ok (BitVec.ofNat 32 (b0 + 2 ^ 8 * b1 + 2 ^ 16 * b2 + 2 ^ 24 * b3))) ∧
  (∀ s : State, s.status = .running → s.cfg.wellFormed = true →
    ¬ (s.cfg.memBase ≤ s.pc.toNat ∧ s.pc.toNat + 4 ≤ s.cfg.memBase + s.cfg.memSize) →
    ∃ t, step s = .next t ∧ t.status = .faulted .addressFault ∧ SameButStatus s t) ∧
  (∀ s t : State, step s = .next t → t.status = .faulted .addressFault →
    ¬ (s.cfg.memBase ≤ s.pc.toNat ∧ s.pc.toNat + 4 ≤ s.cfg.memBase + s.cfg.memSize)) ∧
  (∀ (c : Config) (image : List Byte) (s : State), launch c image = .ok s → s.pc.toNat % 4 = 0) ∧
  (∀ s t : State, s.pc.toNat % 4 = 0 → step s = .next t → t.pc.toNat % 4 = 0)

/-- R133: a step that raises changes nothing beside the status but what it had already written: nothing where the fetch
raised `AddressFault`, the program counter's increment where the execution raised `InvalidInstruction`. The unit then has no
step and keeps that status until reset. -/
def Obligations.RaiseStopsTheStep : Prop :=
  (∀ s t : State, step s = .next t → t.status = .faulted .addressFault →
    t = { s with status := .faulted .addressFault }) ∧
  (∀ s t : State, step s = .next t → t.status = .faulted .invalidInstruction →
    t = { s with pc := s.pc + 4#32, status := .faulted .invalidInstruction }) ∧
  (∀ (t : State) (k : FaultKind), t.status = .faulted k →
    (∀ u, step t ≠ .next u) ∧ t.applyReset.status = .running)

/-- R131: the step of a word that was fetched raises `InvalidInstruction` exactly when the word matches none of the nine
patterns; the program counter is then the word's address plus 4, and no register, no byte of memory has changed. -/
def Obligations.WordWithoutHandlerFaults : Prop :=
  ∀ (s : State) (w : Word), s.status = .running → s.cfg.wellFormed = true → s.fetch = .ok w →
    ∃ t, step s = .next t ∧ (t.status = .faulted .invalidInstruction ↔ hasHandler w = false) ∧
      (hasHandler w = false → t.pc = s.pc + 4#32 ∧ t.cfg = s.cfg ∧
        (∀ r, t.readReg r = s.readReg r) ∧ ∀ a, t.byteAt a = s.byteAt a)

/-- R88 (decisions D5, D9): a step ends in `Halted` exactly when it ran one of the nine instructions at `0xFFFFFFFC`;
the memory then ends at 2^32, the program counter is 0, and the instruction's register write is kept. -/
def Obligations.HaltExactlyAtTheWrap : Prop :=
  ∀ s t : State, step s = .next t →
    (t.status = .halted ↔ s.pc = 0xFFFFFFFC#32 ∧ ∃ w, s.fetch = .ok w ∧ hasHandler w = true) ∧
    (t.status = .halted → t.pc = 0#32 ∧ s.cfg.memBase + s.cfg.memSize = 2 ^ 32 ∧
      ∃ w i u, s.fetch = .ok w ∧ decodeWord w = .ok i ∧ exec i s.advancePc = .next u ∧
        ∀ r, t.readReg r = u.readReg r)

/-- R136: an illegal word fetched from `0xFFFFFFFC` ends the unit in `Faulted(InvalidInstruction)` with the program
counter 0, not in `Halted`. -/
def Obligations.IllegalWordAtTheTopIsNotHalt : Prop :=
  ∀ (s : State) (w : Word), s.status = .running → s.cfg.wellFormed = true → s.pc = 0xFFFFFFFC#32 →
    s.fetch = .ok w → hasHandler w = false →
    ∃ t, step s = .next t ∧ t.status = .faulted .invalidInstruction ∧ t.pc = 0#32

/-- R80 (decision D22): a unit that is halted or faulted has no step, and the reason given names its status. -/
def Obligations.FinalStatusHasNoStep : Prop :=
  (∀ s : State, s.status = .halted → step s = .fault .halted) ∧
  (∀ (s : State) (k : FaultKind), s.status = .faulted k → step s = .fault (.stopped k)) ∧
  (∀ s t : State, step s = .next t → s.status = .running)

/-- R91: every step of a running unit ends in one of the four results, and the result tells the status: continue is
`Running`, halt is `Halted`, a fault is `Faulted` of its kind. -/
def Obligations.EveryStepReportsItsResult : Prop :=
  ∀ s : State, s.status = .running → s.cfg.wellFormed = true → ∃ t, step s = .next t ∧
    ((t.result = .continue_ ∧ t.status = .running) ∨ (t.result = .halt ∧ t.status = .halted) ∨
     (t.result = .fault .invalidInstruction ∧ t.status = .faulted .invalidInstruction) ∨
     (t.result = .fault .addressFault ∧ t.status = .faulted .addressFault))

/-- R82: the increment adds 4 modulo 2^32 after the fetch, whatever the word, one that then faults included, and is the
only write of the program counter: a step whose fetch faults leaves it, and no instruction touches it. -/
def Obligations.PcAdvancesByFourOnly : Prop :=
  (∀ (s t : State) (w : Word), step s = .next t → s.fetch = .ok w → t.pc.toNat = (s.pc.toNat + 4) % 2 ^ 32) ∧
  (∀ (s t : State) (k : FaultKind), step s = .next t → s.fetch = .error k → t.pc = s.pc) ∧
  (∀ (i : Instr) (s t : State), exec i s = .next t → t.pc = s.pc)

/-- R151: a launch constructs the memory, all zero with the image at its low end; reset of the unit leaves it as it is;
and memory, every byte of it, after any number of steps equals memory before them. -/
def Obligations.MemoryIsConstantDuringARun : Prop :=
  (∀ (c : Config) (image : List Byte) (s : State), launch c image = .ok s → ∀ a : Word,
    c.memBase ≤ a.toNat → a.toNat < c.memBase + c.memSize →
    s.byteAt a = .ok ((image[a.toNat - c.memBase]?).getD 0#8).toNat) ∧
  (∀ (s : State) (a : Word), s.applyReset.byteAt a = s.byteAt a) ∧
  (∀ (n : Nat) (s t : State), runSteps n s = .next t → t.cfg = s.cfg ∧ ∀ a, t.byteAt a = s.byteAt a)

/-! ### Memory (20_memory.md) -/

/-- R36: a read in range answers the sum of the bytes at the address plus `i` times `2^(8i)`, unsigned; a read that is not
raises `AddressFault`. It answers no state, so it changes none. -/
def Obligations.MemReadIsTheByteSum : Prop :=
  ∀ (s : State) (addr : Word) (n : AccessWidth), s.cfg.wellFormed = true →
    (InRange s.cfg addr (widthBytes n) → ∃ b : Nat → Nat,
      (∀ i, i < widthBytes n → s.byteAt (addr + BitVec.ofNat 32 i) = .ok (b i)) ∧
      s.memRead addr n = .ok (∑ i ∈ Finset.range (widthBytes n), b i * 2 ^ (8 * i)) ∧
      ∑ i ∈ Finset.range (widthBytes n), b i * 2 ^ (8 * i) < 2 ^ (8 * widthBytes n)) ∧
    (¬ InRange s.cfg addr (widthBytes n) → s.memRead addr n = .error .addressFault)

/-- R37: a write in range stores byte `i` of the integer, `(v >> 8i) & 0xFF`, at the address plus `i`, for the `n` bytes of
its width, drops the bits above them, so that the same read answers `v mod 2^(8n)`, and changes only those bytes; a write
that is not in range raises `AddressFault`; no instruction performs one. -/
def Obligations.MemWriteStoresItsBytes : Prop :=
  (∀ (i : Instr) (s t : State) (a : Word), exec i s = .next t → t.byteAt a = s.byteAt a) ∧
  ∀ (s : State) (addr : Word) (n : AccessWidth) (v : Int), s.cfg.wellFormed = true → s.mem.wf = true →
    (InRange s.cfg addr (widthBytes n) → ∃ t, s.memWrite addr n v = .ok t ∧
      (∀ i, i < widthBytes n →
        t.byteAt (addr + BitVec.ofNat 32 i) = .ok ((v >>> (8 * i)) % 256).toNat) ∧
      t.memRead addr n = .ok (v % 2 ^ (8 * widthBytes n)).toNat ∧
      (∀ a : Word, ¬ (addr.toNat ≤ a.toNat ∧ a.toNat < addr.toNat + widthBytes n) → t.byteAt a = s.byteAt a) ∧
      (∀ r, t.readReg r = s.readReg r) ∧ t.pc = s.pc ∧ t.status = s.status ∧ t.cfg = s.cfg) ∧
    (¬ InRange s.cfg addr (widthBytes n) → s.memWrite addr n v = .error .addressFault)

/-- R40: what was written at one width is read at the same or a narrower one inside it as exactly the bytes stored; at the
same address and width that is the value modulo `2^(8n)`. -/
def Obligations.ReadBackAtAnyWidth : Prop :=
  ∀ (s t : State) (addr : Word) (n n' : AccessWidth) (j : Nat) (v : Int), s.cfg.wellFormed = true → s.mem.wf = true →
    s.memWrite addr n v = .ok t → j + widthBytes n' ≤ widthBytes n →
    ∃ u : Nat, t.memRead (addr + BitVec.ofNat 32 j) n' = .ok u ∧
      (u : Int) = v / 2 ^ (8 * j) % 2 ^ (8 * widthBytes n')

/-- R38 (decisions D10, D12): a read answers exactly when every one of its bytes is a valid address, whatever the
alignment, the addresses counted without wrapping; an access that straddles an end is out of range as a whole. -/
def Obligations.AccessInRangeIffEveryByteIs : Prop :=
  ∀ (s : State) (addr : Word) (n : AccessWidth),
    (∃ v, s.memRead addr n = .ok v) ↔
    ∀ k, k < widthBytes n → s.cfg.memBase ≤ addr.toNat + k ∧ addr.toNat + k < s.cfg.memBase + s.cfg.memSize

/-- 20_memory.md section 1: the valid byte addresses are exactly `MEM_BASE` up to but not including `MEM_BASE + MEM_SIZE`, and the reset value
of `x2`, where that sum is an address, is the first invalid one above the memory. That `x2` is the stack pointer is the
spec's own choice (log entry 6). -/
def Obligations.ValidAddressesAreTheMemory : Prop :=
  (∀ (s : State) (a : Word), (∃ v, s.byteAt a = .ok v) ↔
    s.cfg.memBase ≤ a.toNat ∧ a.toNat < s.cfg.memBase + s.cfg.memSize) ∧
  (∀ s : State, s.cfg.wellFormed = true → s.cfg.memBase + s.cfg.memSize < 2 ^ 32 →
    s.byteAt (s.applyReset.readReg 2#5) = .error .addressFault ∧
    ∃ v, s.byteAt (s.applyReset.readReg 2#5 - 1#32) = .ok v)

/-- R47: a word written at the program counter is what the very next fetch reads. -/
def Obligations.FetchSeesTheWordJustWritten : Prop :=
  ∀ (s t : State) (v : Word), s.cfg.wellFormed = true → s.mem.wf = true →
    s.memWrite s.pc .word v.toNat = .ok t → t.fetch = .ok v

/-! ### Reset, image and launch (10_state.md R25, 20_memory.md R45, R46, 70_reset_and_hazards.md) -/

/-- R25 (decisions D8, D28): every launch state has the reset values. That `x2` is the stack pointer is the spec's own
choice (log entry 6); the configuration `State.reset` takes is the model's (log entry 2), and nothing here rests on it. -/
def Obligations.LaunchStateHasResetValues : Prop :=
  ∀ (c : Config) (image : List Byte) (s : State), launch c image = .ok s →
    s.cfg = c ∧ s.pc.toNat = c.memBase ∧ s.status = .running ∧
    (s.readReg 2#5).toNat = (c.memBase + c.memSize) % 2 ^ 32 ∧ ∀ r, r ≠ 2#5 → s.readReg r = 0x00000000#32

/-- R46: an image longer than the memory is refused, and then there is no launch state; every image that is not, the empty
one and one that fills the memory among them, has one. -/
def Obligations.OversizedImageIsRefused : Prop :=
  ∀ (c : Config) (image : List Byte), c.wellFormed = true →
    (c.memSize < image.length → launch c image = .error .imageTooLarge) ∧
    (image.length ≤ c.memSize → ∃ s, launch c image = .ok s)

/-- R162, R150 (decision D23): reset of a used unit, in whatever state, gives the reset values again under the same
parameters, and is the way out of a final status. -/
def Obligations.ResetOfAUsedUnit : Prop :=
  ∀ s : State, s.cfg.wellFormed = true →
    s.applyReset.status = .running ∧ s.applyReset.cfg = s.cfg ∧ s.applyReset.pc.toNat = s.cfg.memBase ∧
    (s.applyReset.readReg 2#5).toNat = (s.cfg.memBase + s.cfg.memSize) % 2 ^ 32 ∧
    (∀ r, r ≠ 2#5 → s.applyReset.readReg r = 0x00000000#32) ∧ ∃ t, step s.applyReset = .next t

/-! ### Whole-machine rules -/

/-- The invariant holds in every launch state and in `State.reset` (whose configuration is the model's choice, log
entry 2). -/
def Obligations.LaunchStateMeetsInvariant : Prop :=
  State.reset.Inv ∧ ∀ (c : Config) (image : List Byte) (s : State), launch c image = .ok s → s.Inv

/-- Every step keeps the invariant, from every state that meets it, whether or not a run reaches it: a legal configuration,
a canonical memory inside its bounds, an aligned program counter (R16), and a program counter where the status says it is:
inside or just past the memory while running, 0 at the end of a memory that ends at 2^32 when halted (R88), at the word
that could not be fetched after an `AddressFault` (R132), just past a word without a handler after an
`InvalidInstruction` (R138). -/
def Obligations.EveryStepKeepsTheInvariant : Prop :=
  ∀ s t : State, s.Inv → step s = .next t → t.Inv

/-- R145, R123 (D24): from every running state of a legal configuration the run ends: after some number of steps, at most
`MEM_SIZE / 4` of which complete without a fault, and one more at most, the unit has a final status and no step. -/
def Obligations.EveryRunEnds : Prop :=
  ∀ s : State, s.status = .running → s.cfg.wellFormed = true →
    ∃ (n : Nat) (t : State), runSteps n s = .next t ∧ t.status ≠ .running ∧
      n ≤ s.cfg.memSize / 4 + 1 ∧ (n = s.cfg.memSize / 4 + 1 → ∃ k, t.status = .faulted k) ∧
      (∀ m, m < n → ∃ u, runSteps m s = .next u ∧ u.status = .running) ∧
      ∀ u, step t ≠ .next u

/-- R19: nothing is carried from one step to the next but `x`, `pc`, `status` and memory, and of memory a step reads only
the word at `pc`: two states of one configuration that agree on the registers, the program counter, the status and the
fetch step to states that agree on the registers, the program counter and the status, whatever the rest of memory. -/
def Obligations.StepReadsOnlyTheFetchedWord : Prop :=
  ∀ s s' t : State, s'.cfg = s.cfg → s'.pc = s.pc → s'.status = s.status → s'.fetch = s.fetch →
    (∀ r, s'.readReg r = s.readReg r) → step s = .next t →
    ∃ t', step s' = .next t' ∧ t'.pc = t.pc ∧ t'.status = t.status ∧ ∀ r, t'.readReg r = t.readReg r
end

