-- ==== Sys2Proof/Laws/Decode.lean ====
section
/-! SUPPORT. The fields of an encoded word, what the decoder does by opcode, and the immediates. -/

namespace Sys2Proof

/-! ### The fields of an I-format word -/

@[simp] theorem opcodeOf_encodeI (f : BitVec 3) (rd rs1 : Reg) (imm : Word) :
    opcodeOf (encodeI f rd rs1 imm) = 0b0010011#7 := by
  ext k hk
  simp only [opcodeOf, encodeI, BitVec.getElem_extractLsb', BitVec.getLsbD_append]
  rw [if_pos (by omega)]; simp [BitVec.getLsbD_eq_getElem, hk]

@[simp] theorem rdOf_encodeI (f : BitVec 3) (rd rs1 : Reg) (imm : Word) : rdOf (encodeI f rd rs1 imm) = rd := by
  ext k hk
  simp only [rdOf, encodeI, BitVec.getElem_extractLsb', BitVec.getLsbD_append]
  rw [if_neg (by omega), if_pos (by omega), show 7 + k - 7 = k by omega, BitVec.getLsbD_eq_getElem]

@[simp] theorem funct3Of_encodeI (f : BitVec 3) (rd rs1 : Reg) (imm : Word) : funct3Of (encodeI f rd rs1 imm) = f := by
  ext k hk
  simp only [funct3Of, encodeI, BitVec.getElem_extractLsb', BitVec.getLsbD_append]
  rw [if_neg (by omega), if_neg (by omega), if_pos (by omega), show 12 + k - 7 - 5 = k by omega,
    BitVec.getLsbD_eq_getElem]

@[simp] theorem rs1Of_encodeI (f : BitVec 3) (rd rs1 : Reg) (imm : Word) : rs1Of (encodeI f rd rs1 imm) = rs1 := by
  ext k hk
  simp only [rs1Of, encodeI, BitVec.getElem_extractLsb', BitVec.getLsbD_append]
  rw [if_neg (by omega), if_neg (by omega), if_neg (by omega), if_pos (by omega),
    show 15 + k - 7 - 5 - 3 = k by omega, BitVec.getLsbD_eq_getElem]

/-- The twelve immediate bits of an I-format word are the low twelve bits of the immediate. -/
@[simp] theorem immField_encodeI (f : BitVec 3) (rd rs1 : Reg) (imm : Word) :
    (encodeI f rd rs1 imm).extractLsb' 20 12 = imm.extractLsb' 0 12 := by
  ext k hk
  simp only [encodeI, BitVec.getElem_extractLsb', BitVec.getLsbD_append]
  rw [if_neg (by omega), if_neg (by omega), if_neg (by omega), if_neg (by omega),
    show 20 + k - 7 - 5 - 3 - 5 = k by omega, BitVec.getLsbD_extractLsb']
  simp [hk]

/-- An immediate in range is the sign extension of its low twelve bits (R54, R100). -/
theorem signExtend_low12_of_immFits {imm : Word} (h : immFits imm = true) :
    (imm.extractLsb' 0 12).signExtend 32 = imm := by
  simp only [immFits, Bool.and_eq_true, decide_eq_true_eq] at h
  apply BitVec.eq_of_toInt_eq
  rw [BitVec.toInt_signExtend_of_le (by omega)]
  simp only [BitVec.toInt_eq_toNat_cond, BitVec.extractLsb'_toNat, Nat.shiftRight_zero] at h ⊢
  have := imm.isLt
  split_ifs at h ⊢ <;> omega

/-! ### The fields of a word of the shift variant -/

@[simp] theorem opcodeOf_encodeShift (g : BitVec 7) (f : BitVec 3) (rd rs1 : Reg) (k : BitVec 5) :
    opcodeOf (encodeShift g f rd rs1 k) = 0b0010011#7 := by
  ext k hk
  simp only [opcodeOf, encodeShift, BitVec.getElem_extractLsb', BitVec.getLsbD_append]
  rw [if_pos (by omega)]; simp [BitVec.getLsbD_eq_getElem, hk]

@[simp] theorem rdOf_encodeShift (g : BitVec 7) (f : BitVec 3) (rd rs1 : Reg) (k : BitVec 5) :
    rdOf (encodeShift g f rd rs1 k) = rd := by
  ext k hk
  simp only [rdOf, encodeShift, BitVec.getElem_extractLsb', BitVec.getLsbD_append]
  rw [if_neg (by omega), if_pos (by omega), show 7 + k - 7 = k by omega, BitVec.getLsbD_eq_getElem]

@[simp] theorem funct3Of_encodeShift (g : BitVec 7) (f : BitVec 3) (rd rs1 : Reg) (k : BitVec 5) :
    funct3Of (encodeShift g f rd rs1 k) = f := by
  ext k hk
  simp only [funct3Of, encodeShift, BitVec.getElem_extractLsb', BitVec.getLsbD_append]
  rw [if_neg (by omega), if_neg (by omega), if_pos (by omega), show 12 + k - 7 - 5 = k by omega,
    BitVec.getLsbD_eq_getElem]

@[simp] theorem rs1Of_encodeShift (g : BitVec 7) (f : BitVec 3) (rd rs1 : Reg) (k : BitVec 5) :
    rs1Of (encodeShift g f rd rs1 k) = rs1 := by
  ext k hk
  simp only [rs1Of, encodeShift, BitVec.getElem_extractLsb', BitVec.getLsbD_append]
  rw [if_neg (by omega), if_neg (by omega), if_neg (by omega), if_pos (by omega),
    show 15 + k - 7 - 5 - 3 = k by omega, BitVec.getLsbD_eq_getElem]

@[simp] theorem funct7Of_encodeShift (g : BitVec 7) (f : BitVec 3) (rd rs1 : Reg) (k : BitVec 5) :
    funct7Of (encodeShift g f rd rs1 k) = g := by
  ext k hk
  simp only [funct7Of, encodeShift, BitVec.getElem_extractLsb', BitVec.getLsbD_append]
  rw [if_neg (by omega), if_neg (by omega), if_neg (by omega), if_neg (by omega), if_neg (by omega),
    show 25 + k - 7 - 5 - 3 - 5 - 5 = k by omega, BitVec.getLsbD_eq_getElem]

/-- The shift amount is read from the bits of the `rs2` field (R51, R59). -/
theorem shamtOf_eq_rs2Of (w : Word) : shamtOf w = rs2Of w := by
  ext k hk
  simp only [shamtOf, immI, rs2Of, BitVec.getElem_extractLsb', BitVec.getLsbD_signExtend, BitVec.getLsbD_extractLsb']
  have h1 : k < 32 := by omega
  have h2 : k < 12 := by omega
  simp [h1, h2]

@[simp] theorem shamtOf_encodeShift (g : BitVec 7) (f : BitVec 3) (rd rs1 : Reg) (k : BitVec 5) :
    shamtOf (encodeShift g f rd rs1 k) = k := by
  rw [shamtOf_eq_rs2Of]
  ext k hk
  simp only [rs2Of, encodeShift, BitVec.getElem_extractLsb', BitVec.getLsbD_append]
  rw [if_neg (by omega), if_neg (by omega), if_neg (by omega), if_neg (by omega), if_pos (by omega),
    show 20 + k - 7 - 5 - 3 - 5 = k by omega, BitVec.getLsbD_eq_getElem]

/-! ### The words of the two classes without a handler -/

@[simp] theorem opcodeOf_append (rest : BitVec 25) (op : BitVec 7) : opcodeOf (rest ++ op) = op := by
  ext k hk
  simp only [opcodeOf, BitVec.getElem_extractLsb', BitVec.getLsbD_append]
  rw [if_pos (by omega)]; simp [BitVec.getLsbD_eq_getElem, hk]

@[simp] theorem rest_append (rest : BitVec 25) (op : BitVec 7) : (rest ++ op).extractLsb' 7 25 = rest := by
  ext k hk
  simp only [BitVec.getElem_extractLsb', BitVec.getLsbD_append]
  rw [if_neg (by omega), show 7 + k - 7 = k by omega, BitVec.getLsbD_eq_getElem]

/-! ### The masks of R72, as selector fields -/

/-- A word of the three selector fields alone. -/
def selectorWord (g : BitVec 7) (f : BitVec 3) (op : BitVec 7) : Word := g ++ 0#10 ++ f ++ 0#5 ++ op

theorem opcodeOf_selectorWord (g : BitVec 7) (f : BitVec 3) (op : BitVec 7) : opcodeOf (selectorWord g f op) = op := by
  ext k hk
  simp only [opcodeOf, selectorWord, BitVec.getElem_extractLsb', BitVec.getLsbD_append]
  rw [if_pos (by omega), Nat.zero_add, BitVec.getLsbD_eq_getElem]

theorem funct3Of_selectorWord (g : BitVec 7) (f : BitVec 3) (op : BitVec 7) : funct3Of (selectorWord g f op) = f := by
  ext k hk
  simp only [funct3Of, selectorWord, BitVec.getElem_extractLsb', BitVec.getLsbD_append]
  rw [if_neg (by omega), if_neg (by omega), if_pos (by omega), show 12 + k - 7 - 5 = k by omega,
    BitVec.getLsbD_eq_getElem]

theorem funct7Of_selectorWord (g : BitVec 7) (f : BitVec 3) (op : BitVec 7) : funct7Of (selectorWord g f op) = g := by
  ext k hk
  simp only [funct7Of, selectorWord, BitVec.getElem_extractLsb', BitVec.getLsbD_append]
  rw [if_neg (by omega), if_neg (by omega), if_neg (by omega), if_neg (by omega),
    show 25 + k - 7 - 5 - 3 - 10 = k by omega, BitVec.getLsbD_eq_getElem]

theorem selectorWord_inj {g g' : BitVec 7} {f f' : BitVec 3} {op op' : BitVec 7} :
    selectorWord g f op = selectorWord g' f' op' ↔ op = op' ∧ f = f' ∧ g = g' := by
  constructor
  · intro h
    exact ⟨by rw [← opcodeOf_selectorWord g f op, h, opcodeOf_selectorWord],
      by rw [← funct3Of_selectorWord g f op, h, funct3Of_selectorWord],
      by rw [← funct7Of_selectorWord g f op, h, funct7Of_selectorWord]⟩
  · rintro ⟨rfl, rfl, rfl⟩; rfl

/-- The mask of the right shifts keeps the three selector fields (R72). -/
theorem and_shiftMask (w : Word) : w &&& 0xFE00707F#32 = selectorWord (funct7Of w) (funct3Of w) (opcodeOf w) := by
  apply BitVec.eq_of_getLsbD_eq
  intro k hk
  simp only [selectorWord, funct7Of, funct3Of, opcodeOf, BitVec.getLsbD_and, BitVec.getLsbD_append,
    BitVec.getLsbD_extractLsb', BitVec.getLsbD_zero]
  interval_cases k <;> simp

/-- The mask of the other seven keeps `funct3` and the opcode (R72). -/
theorem and_opImmMask (w : Word) : w &&& 0x0000707F#32 = selectorWord 0#7 (funct3Of w) (opcodeOf w) := by
  apply BitVec.eq_of_getLsbD_eq
  intro k hk
  simp only [selectorWord, funct3Of, opcodeOf, BitVec.getLsbD_and, BitVec.getLsbD_append,
    BitVec.getLsbD_extractLsb', BitVec.getLsbD_zero]
  interval_cases k <;> simp

/-- The mask of the two classes without a handler keeps the opcode (R121, R122). -/
theorem and_classMask (w : Word) : w &&& 0x0000007F#32 = selectorWord 0#7 0#3 (opcodeOf w) := by
  apply BitVec.eq_of_getLsbD_eq
  intro k hk
  simp only [selectorWord, opcodeOf, BitVec.getLsbD_and, BitVec.getLsbD_append,
    BitVec.getLsbD_extractLsb', BitVec.getLsbD_zero]
  interval_cases k <;> simp
/-! ### What the decoder does, by the selector fields -/

theorem decodeWord_opImm {w : Word} (h : opcodeOf w = 0b0010011#7) : decodeWord w = decodeOpImm w := by
  rw [decodeWord, h]; rfl

theorem decodeWord_load {w : Word} (h : opcodeOf w = 0b0000011#7) :
    decodeWord w = .ok (.load (w.extractLsb' 7 25)) := by
  rw [decodeWord, h]; rfl

theorem decodeWord_store {w : Word} (h : opcodeOf w = 0b0100011#7) :
    decodeWord w = .ok (.store (w.extractLsb' 7 25)) := by
  rw [decodeWord, h]; rfl

/-- The three opcodes the dispatch recognises are the only words of their classes (R61). -/
theorem opcodeClass_cases (op : BitVec 7) :
    (op = 0b0010011#7 ∧ opcodeClass op = .opImm) ∨ (op = 0b0000011#7 ∧ opcodeClass op = .load) ∨
    (op = 0b0100011#7 ∧ opcodeClass op = .store) ∨
    (op ≠ 0b0010011#7 ∧ op ≠ 0b0000011#7 ∧ op ≠ 0b0100011#7 ∧ opcodeClass op ≠ .opImm ∧ opcodeClass op ≠ .load ∧
      opcodeClass op ≠ .store) := by
  revert op; decide

/-- A word of any other opcode is refused by the name of its class (R123 to R127). -/
theorem decodeWord_other {w : Word} (h1 : opcodeOf w ≠ 0b0010011#7) (h2 : opcodeOf w ≠ 0b0000011#7)
    (h3 : opcodeOf w ≠ 0b0100011#7) : decodeWord w = .error (.noHandler (opcodeClass (opcodeOf w))) := by
  obtain ⟨e, _⟩ | ⟨e, _⟩ | ⟨e, _⟩ | ⟨_, _, _, e1, e2, e3⟩ := opcodeClass_cases (opcodeOf w)
  · exact absurd e h1
  · exact absurd e h2
  · exact absurd e h3
  · unfold decodeWord
    split <;> first | contradiction | rfl

theorem decodeRightShift_cases (w : Word) :
    (funct7Of w = 0b0000000#7 ∧ decodeRightShift w = .ok (.srli (rdOf w) (rs1Of w) (shamtOf w))) ∨
    (funct7Of w = 0b0100000#7 ∧ decodeRightShift w = .ok (.srai (rdOf w) (rs1Of w) (shamtOf w))) ∨
    (funct7Of w ≠ 0b0000000#7 ∧ funct7Of w ≠ 0b0100000#7 ∧
      decodeRightShift w = .error (.noRightShift (funct7Of w))) := by
  unfold decodeRightShift
  split
  · exact .inl ⟨by assumption, rfl⟩
  · exact .inr (.inl ⟨by assumption, rfl⟩)
  · exact .inr (.inr ⟨by assumption, by assumption, rfl⟩)

/-- The value of `funct3` that selects each OP-IMM instruction, and the instruction it selects: all the decoder can do
within the class (R63). -/
theorem decodeOpImm_cases (w : Word) :
    (funct3Of w = 0b000#3 ∧ decodeOpImm w = .ok (.addi (rdOf w) (rs1Of w) (immI w))) ∨
    (funct3Of w = 0b010#3 ∧ decodeOpImm w = .ok (.slti (rdOf w) (rs1Of w) (immI w))) ∨
    (funct3Of w = 0b011#3 ∧ decodeOpImm w = .ok (.sltiu (rdOf w) (rs1Of w) (immI w))) ∨
    (funct3Of w = 0b100#3 ∧ decodeOpImm w = .ok (.xori (rdOf w) (rs1Of w) (immI w))) ∨
    (funct3Of w = 0b110#3 ∧ decodeOpImm w = .ok (.ori (rdOf w) (rs1Of w) (immI w))) ∨
    (funct3Of w = 0b111#3 ∧ decodeOpImm w = .ok (.andi (rdOf w) (rs1Of w) (immI w))) ∨
    (funct3Of w = 0b001#3 ∧ decodeOpImm w = .ok (.slli (rdOf w) (rs1Of w) (shamtOf w) (funct7Of w))) ∨
    (funct3Of w = 0b101#3 ∧ decodeOpImm w = decodeRightShift w) := by
  have hall : ∀ f : BitVec 3, f = 0b000#3 ∨ f = 0b010#3 ∨ f = 0b011#3 ∨ f = 0b100#3 ∨ f = 0b110#3 ∨ f = 0b111#3 ∨
      f = 0b001#3 ∨ f = 0b101#3 := by decide
  unfold decodeOpImm
  obtain h | h | h | h | h | h | h | h := hall (funct3Of w) <;> rw [h] <;> simp

/-- An immediate the decoder makes is in range (R54). -/
theorem immFits_immI (w : Word) : immFits (immI w) = true := by
  rw [immI, immFits, BitVec.toInt_signExtend_of_le (by omega)]
  generalize BitVec.extractLsb' 20 12 w = x
  have := x.isLt
  rw [BitVec.toInt_eq_toNat_cond, Bool.and_eq_true, decide_eq_true_eq, decide_eq_true_eq]
  split_ifs <;> omega

end Sys2Proof
end

