-- ==== Sys2Proof/Laws/State.lean ====
section
/-! SUPPORT. What each update of the state does to each field, and to a register read. -/

namespace Sys2Proof.Machine

/-- The constraints of 00_scope.md R6, as arithmetic. -/
theorem wellFormed_iff (c : Config) :
    c.wellFormed = true ↔ c.memBase % 4 = 0 ∧ 1 ≤ c.memSize ∧ c.memBase + c.memSize ≤ 2 ^ 32 := by
  simp [Config.wellFormed, and_assoc]

/-- An address sum that stays below 2^32 is not reduced. -/
theorem toNat_add_ofNat {a : Word} {k : Nat} (h : a.toNat + k < 2 ^ 32) :
    (a + BitVec.ofNat 32 k).toNat = a.toNat + k := by
  rw [BitVec.toNat_add, BitVec.toNat_ofNat]; omega

/-! ### advancePc -/

@[simp] theorem State.advancePc_pc (s : State) : s.advancePc.pc = s.pc + 4#32 := rfl
@[simp] theorem State.advancePc_gprs (s : State) : s.advancePc.gprs = s.gprs := rfl
@[simp] theorem State.advancePc_status (s : State) : s.advancePc.status = s.status := rfl
@[simp] theorem State.advancePc_mem (s : State) : s.advancePc.mem = s.mem := rfl
@[simp] theorem State.advancePc_cfg (s : State) : s.advancePc.cfg = s.cfg := rfl

/-! ### raise -/

@[simp] theorem State.raise_status (s : State) (k : FaultKind) : (s.raise k).status = .faulted k := rfl
@[simp] theorem State.raise_pc (s : State) (k : FaultKind) : (s.raise k).pc = s.pc := rfl
@[simp] theorem State.raise_gprs (s : State) (k : FaultKind) : (s.raise k).gprs = s.gprs := rfl
@[simp] theorem State.raise_mem (s : State) (k : FaultKind) : (s.raise k).mem = s.mem := rfl
@[simp] theorem State.raise_cfg (s : State) (k : FaultKind) : (s.raise k).cfg = s.cfg := rfl

/-! ### writeReg -/

@[simp] theorem State.writeReg_pc (s : State) (r : Reg) (v : Word) : (s.writeReg r v).pc = s.pc := by
  unfold State.writeReg; split <;> rfl
@[simp] theorem State.writeReg_status (s : State) (r : Reg) (v : Word) : (s.writeReg r v).status = s.status := by
  unfold State.writeReg; split <;> rfl
@[simp] theorem State.writeReg_mem (s : State) (r : Reg) (v : Word) : (s.writeReg r v).mem = s.mem := by
  unfold State.writeReg; split <;> rfl
@[simp] theorem State.writeReg_cfg (s : State) (r : Reg) (v : Word) : (s.writeReg r v).cfg = s.cfg := by
  unfold State.writeReg; split <;> rfl

/-! ### haltTest -/

@[simp] theorem State.haltTest_pc (s : State) : s.haltTest.pc = s.pc := by unfold State.haltTest; split <;> rfl
@[simp] theorem State.haltTest_gprs (s : State) : s.haltTest.gprs = s.gprs := by unfold State.haltTest; split <;> rfl
@[simp] theorem State.haltTest_mem (s : State) : s.haltTest.mem = s.mem := by unfold State.haltTest; split <;> rfl
@[simp] theorem State.haltTest_cfg (s : State) : s.haltTest.cfg = s.cfg := by unfold State.haltTest; split <;> rfl

/-- The halt test changes the status of a running unit whose program counter is 0, and nothing else (R88). -/
theorem State.haltTest_status (s : State) :
    s.haltTest.status = if s.status = .running ∧ s.pc = 0#32 then .halted else s.status := by
  unfold State.haltTest; split <;> rfl

theorem State.haltTest_of_not_running (s : State) (h : s.status ≠ .running) : s.haltTest = s := by
  simp [State.haltTest, h]

/-! ### resetWith -/

@[simp] theorem State.resetWith_cfg (c : Config) (m : Memory) : (State.resetWith c m).cfg = c := rfl
@[simp] theorem State.resetWith_gprs (c : Config) (m : Memory) : (State.resetWith c m).gprs = resetGprs c := rfl
@[simp] theorem State.resetWith_pc (c : Config) (m : Memory) : (State.resetWith c m).pc = resetPc c := rfl
@[simp] theorem State.resetWith_status (c : Config) (m : Memory) : (State.resetWith c m).status = .running := rfl
@[simp] theorem State.resetWith_mem (c : Config) (m : Memory) : (State.resetWith c m).mem = m := rfl

/-! ### Register reads -/

@[simp] theorem State.readReg_zero (s : State) : s.readReg 0#5 = 0#32 := rfl

/-- A register read looks at the registers only. -/
theorem State.readReg_congr {s t : State} (h : t.gprs = s.gprs) (r : Reg) : t.readReg r = s.readReg r := by
  simp [State.readReg, h]

@[simp] theorem State.readReg_advancePc (s : State) (r : Reg) : s.advancePc.readReg r = s.readReg r :=
  State.readReg_congr rfl r
@[simp] theorem State.readReg_raise (s : State) (k : FaultKind) (r : Reg) : (s.raise k).readReg r = s.readReg r :=
  State.readReg_congr rfl r
@[simp] theorem State.readReg_haltTest (s : State) (r : Reg) : s.haltTest.readReg r = s.readReg r :=
  State.readReg_congr s.haltTest_gprs r

/-- Two registers other than `x0` with one slot are one register. -/
theorem gprSlot_inj {r q : Reg} (hr : r ≠ 0#5) (hq : q ≠ 0#5) (h : gprSlot r = gprSlot q) : r = q := by
  have h0 : r.toNat - 1 = q.toNat - 1 := congrArg Fin.val h
  have hr' : r.toNat ≠ 0 := fun e => hr (BitVec.eq_of_toNat_eq e)
  have hq' : q.toNat ≠ 0 := fun e => hq (BitVec.eq_of_toNat_eq e)
  exact BitVec.eq_of_toNat_eq (by omega)

/-- Everything a register write does to register reads: the written register reads as the value, unless it is `x0`,
and every other register reads as before (R13, R14). -/
theorem State.readReg_writeReg (s : State) (r q : Reg) (v : Word) :
    (s.writeReg r v).readReg q = if q = r ∧ r ≠ 0#5 then v else s.readReg q := by
  by_cases hr : r = 0#5
  · subst hr; simp [State.writeReg]
  · by_cases hq : q = 0#5
    · subst hq; simp [State.readReg, Ne.symm hr]
    · by_cases h : q = r
      · subst h; simp [State.writeReg, State.readReg, hr]
      · have hs : ¬ ((gprSlot r : Fin 31) : Nat) = (gprSlot q : Fin 31) := fun e => h (gprSlot_inj hr hq (Fin.ext e)).symm
        simp [State.writeReg, State.readReg, hr, hq, h, hs]

@[simp] theorem State.writeReg_zero (s : State) (v : Word) : s.writeReg 0#5 v = s := rfl

/-- The reset values of the registers (R25). -/
theorem readReg_resetWith (c : Config) (m : Memory) (r : Reg) :
    (State.resetWith c m).readReg r = if r = 2#5 then BitVec.ofNat 32 (c.memBase + c.memSize) else 0#32 := by
  have hx : ∀ a b : Reg, (a = b) = (a.toNat = b.toNat) := fun a b => by rw [BitVec.toNat_inj]
  simp only [State.readReg, State.resetWith, resetGprs, Fin.getElem_fin, Vector.getElem_set, gprSlot,
    Vector.getElem_replicate, hx]
  have h2 : (2#5).toNat = 2 := rfl
  have h0 : (0#5).toNat = 0 := rfl
  rw [h2, h0]
  by_cases h : r.toNat = 0
  · rw [if_pos h, if_neg (by omega)]
  · rw [if_neg h]
    by_cases h' : r.toNat = 2
    · rw [if_pos (by omega), if_pos h']
    · rw [if_neg (by omega), if_neg h']

end Sys2Proof.Machine
end

