-- ==== Sys2Proof/Laws/Memory.lean ====
section
/-! SUPPORT. The laws of memory: the canonical form is kept, a read after a write, little-endian values, and what the two
bus primitives can answer. -/

namespace Sys2Proof.Machine

/-! ### The canonical form -/

theorem Memory.wfFrom_mono {lo lo' : Nat} (h : lo' ≤ lo) :
    ∀ {m : Memory}, Memory.wfFrom lo m = true → Memory.wfFrom lo' m = true
  | [], _ => rfl
  | (a, b) :: m, hw => by
    simp only [Memory.wfFrom, Bool.and_eq_true, decide_eq_true_eq] at hw ⊢
    exact ⟨⟨by omega, hw.1.2⟩, hw.2⟩

theorem Memory.wfFrom_writeByte {lo a : Nat} (b : Byte) (h : lo ≤ a) :
    ∀ {m : Memory}, Memory.wfFrom lo m = true → Memory.wfFrom lo (m.writeByte a b) = true
  | [], _ => by
    by_cases hb : b = 0#8 <;> simp [Memory.writeByte, Memory.wfFrom, hb, h]
  | (a', b') :: m, hw => by
    simp only [Memory.wfFrom, Bool.and_eq_true, decide_eq_true_eq] at hw
    obtain ⟨⟨h1, h2⟩, h3⟩ := hw
    unfold Memory.writeByte
    split
    · split
      · simp [Memory.wfFrom, h1, h2, h3]
      · rename_i hlt hb
        have : a + 1 ≤ a' := hlt
        simp [Memory.wfFrom, h, hb, this, h2, h3]
    · split
      · rename_i heq
        subst heq
        split
        · exact Memory.wfFrom_mono (by omega) h3
        · rename_i hb; simp [Memory.wfFrom, h, hb, h3]
      · have ih := Memory.wfFrom_writeByte (lo := a' + 1) (a := a) b (by omega) h3
        simp [Memory.wfFrom, h1, h2, ih]

/-- A byte write keeps the canonical form. -/
theorem Memory.wf_writeByte {m : Memory} (a : Nat) (b : Byte) (h : m.wf = true) : (m.writeByte a b).wf = true :=
  Memory.wfFrom_writeByte b (Nat.zero_le a) h

/-- A write of a run of bytes keeps the canonical form. -/
theorem Memory.wf_writeBytes : ∀ (bs : List Byte) {m : Memory} (a : Nat), m.wf = true → (m.writeBytes a bs).wf = true
  | [], _, _, h => h
  | b :: bs, _, a, h => Memory.wf_writeBytes bs (a + 1) (Memory.wf_writeByte a b h)

/-- The memory of the reset state is canonical. -/
theorem reset_mem_wf : State.reset.mem.wf = true := rfl

theorem Memory.within_writeByte {lo hi a : Nat} (b : Byte) (h1 : lo ≤ a) (h2 : a < hi) :
    ∀ {m : Memory}, m.within lo hi = true → (m.writeByte a b).within lo hi = true
  | [], _ => by by_cases hb : b = 0#8 <;> simp [Memory.writeByte, Memory.within, hb, h1, h2]
  | (a', b') :: m, hw => by
    have hm : Memory.within m lo hi = true := by
      simp only [Memory.within, List.all_cons, Bool.and_eq_true] at hw ⊢; exact hw.2
    have ih := Memory.within_writeByte b h1 h2 hm
    simp only [Memory.within, List.all_cons, Bool.and_eq_true, decide_eq_true_eq] at hw ih hm
    unfold Memory.writeByte
    split_ifs <;> simp [Memory.within, hw, h1, h2, ih]

/-- A write of a run of bytes inside a range lists no address outside it. -/
theorem Memory.within_writeBytes {lo hi : Nat} : ∀ (bs : List Byte) {m : Memory} (a : Nat), lo ≤ a →
    a + bs.length ≤ hi → m.within lo hi = true → (m.writeBytes a bs).within lo hi = true
  | [], _, _, _, _, h => h
  | b :: bs, _, a, h1, h2, h => by
    simp only [List.length_cons] at h2
    exact Memory.within_writeBytes bs (a + 1) (by omega) (by omega)
      (Memory.within_writeByte b h1 (by omega) h)

/-! ### Read after write -/

theorem Memory.readByte_of_lt {lo a : Nat} (h : a < lo) :
    ∀ {m : Memory}, Memory.wfFrom lo m = true → m.readByte a = 0#8
  | [], _ => rfl
  | (a', b) :: m, hw => by
    simp only [Memory.wfFrom, Bool.and_eq_true, decide_eq_true_eq] at hw
    have hne : a ≠ a' := by omega
    simp only [Memory.readByte, if_neg hne]
    exact Memory.readByte_of_lt (by omega) hw.2

theorem Memory.readByte_writeByte_from {lo a : Nat} (b : Byte) (q : Nat) :
    ∀ {m : Memory}, Memory.wfFrom lo m = true →
      (m.writeByte a b).readByte q = if q = a then b else m.readByte q
  | [], _ => by
    by_cases hb : b = 0#8 <;> by_cases hq : q = a <;> simp [Memory.writeByte, Memory.readByte, hb, hq]
  | (a', b') :: m, hw => by
    simp only [Memory.wfFrom, Bool.and_eq_true, decide_eq_true_eq] at hw
    obtain ⟨⟨h1, h2⟩, h3⟩ := hw
    unfold Memory.writeByte
    split
    · rename_i hlt
      by_cases hq : q = a
      · subst hq
        have h0 := Memory.readByte_of_lt (a := q) (by omega) h3
        have hne : q ≠ a' := by omega
        split <;> simp_all [Memory.readByte]
      · split <;> simp [Memory.readByte, hq]
    · split
      · rename_i heq
        subst heq
        by_cases hq : q = a
        · subst hq
          have h0 := Memory.readByte_of_lt (a := q) (by omega) h3
          split <;> simp_all [Memory.readByte]
        · split <;> simp [Memory.readByte, hq]
      · rename_i hne
        have ih := Memory.readByte_writeByte_from (a := a) b q h3
        simp only [Memory.readByte, ih]
        by_cases hq : q = a'
        · subst hq; simp [Ne.symm hne]
        · simp [hq]

/-- A byte read after a byte write: the byte written at its address, the old byte everywhere else. -/
theorem Memory.readByte_writeByte {m : Memory} (h : m.wf = true) (a q : Nat) (b : Byte) :
    (m.writeByte a b).readByte q = if q = a then b else m.readByte q :=
  Memory.readByte_writeByte_from b q h

/-- A byte read after a run of bytes was written from `a` on: the run's byte inside the run, the old byte outside. -/
theorem Memory.readByte_writeBytes (q : Nat) : ∀ (bs : List Byte) {m : Memory} (a : Nat), m.wf = true →
    (m.writeBytes a bs).readByte q = if a ≤ q then (bs[q - a]?).getD (m.readByte q) else m.readByte q
  | [], m, a, _ => by simp [Memory.writeBytes]
  | b :: bs, m, a, h => by
    rw [Memory.writeBytes, Memory.readByte_writeBytes q bs (a + 1) (Memory.wf_writeByte a b h),
      Memory.readByte_writeByte h]
    by_cases h1 : a + 1 ≤ q
    · obtain ⟨k, rfl⟩ : ∃ k, q = a + 1 + k := ⟨q - (a + 1), by omega⟩
      have e1 : a + 1 + k - a = k + 1 := by omega
      have e2 : a + 1 + k - (a + 1) = k := by omega
      have e3 : ¬ a + 1 + k = a := by omega
      have e4 : a ≤ a + 1 + k := by omega
      rw [if_pos h1, if_pos e4, if_neg e3, e1, e2, List.getElem?_cons_succ]
    · by_cases h2 : q = a
      · subst h2; simp
      · rw [if_neg h1, if_neg h2, if_neg (by omega)]

theorem Memory.length_readBytes (m : Memory) : ∀ (n a : Nat), (m.readBytes a n).length = n
  | 0, _ => rfl
  | n + 1, a => by simp [Memory.readBytes, Memory.length_readBytes m n (a + 1)]

/-- Byte `k` of a run read from `a` on is the byte at `a + k`. -/
theorem Memory.getElem?_readBytes (m : Memory) : ∀ (n a k : Nat), k < n →
    (m.readBytes a n)[k]? = some (m.readByte (a + k))
  | 0, _, _, h => absurd h (by omega)
  | n + 1, a, 0, _ => by simp [Memory.readBytes]
  | n + 1, a, k + 1, h => by
    rw [Memory.readBytes, List.getElem?_cons_succ, Memory.getElem?_readBytes m n (a + 1) k (by omega)]
    congr 2; omega

/-! ### Little-endian values -/

theorem length_leBytes : ∀ (n : Nat) (v : Int), (leBytes n v).length = n
  | 0, _ => rfl
  | n + 1, v => by simp [leBytes, length_leBytes n]

/-- The value of a run of bytes fits in its bits. -/
theorem leValue_lt : ∀ bs : List Byte, leValue bs < 256 ^ bs.length
  | [] => by simp [leValue]
  | b :: bs => by
    have ih := leValue_lt bs
    have hb := b.isLt
    simp only [leValue, List.length_cons, Nat.pow_succ]
    omega

/-- The value of the low `n` bytes of an integer is the integer modulo `2^(8n)`. -/
theorem leValue_leBytes : ∀ (n : Nat) (v : Int), (leValue (leBytes n v) : Int) = v % 256 ^ n
  | 0, v => by simp [leBytes, leValue]
  | n + 1, v => by
    have ih := leValue_leBytes n (v / 256)
    have hb : ((BitVec.ofInt 8 v).toNat : Int) = v % 256 := by
      rw [BitVec.toNat_ofInt]; omega
    have hp : (0 : Int) < 256 ^ n := by positivity
    simp only [leBytes, leValue, Nat.cast_add, Nat.cast_mul, ih, hb, Nat.cast_ofNat]
    rw [pow_succ, mul_comm ((256 : Int) ^ n) 256, Int.emod_def v (256 * 256 ^ n), Int.emod_def (v / 256),
      Int.emod_def v 256, Int.ediv_ediv_of_nonneg (by omega)]
    ring

/-- Byte `k` of an integer's low `n` bytes. -/
theorem getElem?_leBytes : ∀ (n : Nat) (v : Int) (k : Nat), k < n →
    (leBytes n v)[k]? = some (BitVec.ofInt 8 (v / 256 ^ k))
  | 0, _, _, h => absurd h (by omega)
  | n + 1, v, 0, _ => by simp [leBytes]
  | n + 1, v, k + 1, h => by
    rw [leBytes, List.getElem?_cons_succ, getElem?_leBytes n _ k (by omega), Int.ediv_ediv_of_nonneg (by omega),
      pow_succ, mul_comm]

/-- A byte read after an integer's low `n` bytes were written from `a` on. -/
theorem Memory.readByte_writeBytes_leBytes {m : Memory} (h : m.wf = true) (a n q : Nat) (v : Int) :
    (m.writeBytes a (leBytes n v)).readByte q =
      if a ≤ q ∧ q < a + n then BitVec.ofInt 8 (v / 256 ^ (q - a)) else m.readByte q := by
  rw [Memory.readByte_writeBytes q _ _ h]
  by_cases h1 : a ≤ q
  · by_cases h2 : q < a + n
    · rw [getElem?_leBytes _ _ _ (by omega)]; simp [h1, h2]
    · rw [List.getElem?_eq_none (by rw [length_leBytes]; omega)]; simp [h2]
  · simp [h1]

/-! ### The bus primitives -/

/-- A read answers a value exactly when it is in range (R36, R38). -/
theorem State.memRead_of_inRange {s : State} {addr : Word} {w : AccessWidth} (h : InRange s.cfg addr (widthBytes w)) :
    s.memRead addr w = .ok (leValue (s.mem.readBytes addr.toNat (widthBytes w))) := if_pos h

theorem State.memRead_of_not_inRange {s : State} {addr : Word} {w : AccessWidth}
    (h : ¬ InRange s.cfg addr (widthBytes w)) : s.memRead addr w = .error .addressFault := if_neg h

theorem State.inRange_of_memRead {s : State} {addr : Word} {w : AccessWidth} {v : Nat}
    (h : s.memRead addr w = .ok v) : InRange s.cfg addr (widthBytes w) := by
  by_contra hn
  rw [State.memRead_of_not_inRange hn] at h
  cases h

/-- A read looks at the configuration and the memory only. -/
theorem State.memRead_congr {s t : State} (hc : t.cfg = s.cfg) (hm : t.mem = s.mem) (addr : Word) (w : AccessWidth) :
    t.memRead addr w = s.memRead addr w := by
  simp [State.memRead, hc, hm]

/-- All a write can do: in range it answers the state with the value's bytes stored and nothing else changed, out of
range the fault. -/
theorem State.memWrite_cases (s : State) (addr : Word) (w : AccessWidth) (v : Int) :
    (InRange s.cfg addr (widthBytes w) ∧ s.memWrite addr w v =
      .ok { s with mem := s.mem.writeBytes addr.toNat (leBytes (widthBytes w) v) }) ∨
    (¬ InRange s.cfg addr (widthBytes w) ∧ s.memWrite addr w v = .error .addressFault) := by
  by_cases h : InRange s.cfg addr (widthBytes w)
  · exact .inl ⟨h, if_pos h⟩
  · exact .inr ⟨h, if_neg h⟩

/-- A write keeps the memory canonical and inside its bounds. -/
theorem State.memWrite_keeps_mem {s t : State} {addr : Word} {w : AccessWidth} {v : Int}
    (h : s.memWrite addr w v = .ok t) (hw : s.mem.wf = true)
    (hi : s.mem.within s.cfg.memBase (s.cfg.memBase + s.cfg.memSize) = true) :
    t.mem.wf = true ∧ t.mem.within t.cfg.memBase (t.cfg.memBase + t.cfg.memSize) = true := by
  obtain ⟨hr, he⟩ | ⟨_, he⟩ := State.memWrite_cases s addr w v
  · rw [he] at h
    cases h
    refine ⟨Memory.wf_writeBytes _ _ hw, Memory.within_writeBytes _ _ hr.1 ?_ hi⟩
    rw [length_leBytes]; exact hr.2
  · rw [he] at h; cases h

/-- A fetch answers a word exactly when the four bytes at `pc` are in range (R83). -/
theorem State.fetch_of_inRange {s : State} (h : InRange s.cfg s.pc 4) :
    s.fetch = .ok (BitVec.ofNat 32 (leValue (s.mem.readBytes s.pc.toNat 4))) := by
  have : s.memRead s.pc .word = _ := State.memRead_of_inRange (w := .word) h
  simp [State.fetch, this, Except.map, widthBytes]

theorem State.fetch_of_not_inRange {s : State} (h : ¬ InRange s.cfg s.pc 4) : s.fetch = .error .addressFault := by
  have : s.memRead s.pc .word = _ := State.memRead_of_not_inRange (w := .word) h
  simp [State.fetch, this, Except.map]

theorem State.inRange_of_fetch {s : State} {w : Word} (h : s.fetch = .ok w) : InRange s.cfg s.pc 4 := by
  by_contra hn
  rw [State.fetch_of_not_inRange hn] at h
  cases h

end Sys2Proof.Machine
end

