-- ==== Sys2Proof/Laws/Exec.lean ====
section
/-! SUPPORT. What the two shared handler shapes can do, and what any instruction can do. -/

namespace Sys2Proof.Machine

/-! ### The frame predicates -/

/-- A byte read looks at the configuration and the memory only. -/
theorem State.byteAt_congr {s t : State} (hc : t.cfg = s.cfg) (hm : t.mem = s.mem) (a : Word) :
    t.byteAt a = s.byteAt a := State.memRead_congr hc hm a .byte

/-- The byte at a valid address. -/
theorem State.byteAt_of_valid {s : State} {a : Word} (h1 : s.cfg.memBase ≤ a.toNat)
    (h2 : a.toNat < s.cfg.memBase + s.cfg.memSize) : s.byteAt a = .ok (s.mem.readByte a.toNat).toNat := by
  have h : InRange s.cfg a (widthBytes .byte) := ⟨h1, h2⟩
  rw [State.byteAt, State.memRead_of_inRange h]
  simp [widthBytes, Memory.readBytes, leValue]

/-- All that a launch can do when it answers a state. -/
theorem launch_cases {c : Config} {image : List Byte} {s : State} (h : launch c image = .ok s) :
    c.wellFormed = true ∧ image.length ≤ c.memSize ∧
      s = State.resetWith c (Memory.writeBytes [] c.memBase image) := by
  unfold launch loadImage at h
  split_ifs at h with hc hl
  · cases h; exact ⟨hc, hl, rfl⟩
  · cases h

/-- A register write leaves every other register and everything outside the registers alone. -/
theorem State.sameExcept_writeReg (s : State) (rd : Reg) (v : Word) : SameExcept rd s (s.writeReg rd v) := by
  refine ⟨fun r hr => ?_, by simp, by simp, by simp, fun a => State.byteAt_congr (by simp) (by simp) a⟩
  rw [State.readReg_writeReg, if_neg (fun h => hr h.1)]

/-- The destination after a register write: the value, or zero where the destination is `x0` (R12, R13). -/
theorem State.readReg_writeReg_self (s : State) (rd : Reg) (v : Word) :
    (s.writeReg rd v).readReg rd = if rd = 0#5 then 0#32 else v := by
  rw [State.readReg_writeReg]
  by_cases h : rd = 0#5
  · subst h; simp
  · simp [h]

/-- Raising a fault changes the status only. -/
theorem State.sameButStatus_raise (s : State) (k : FaultKind) : SameButStatus s (s.raise k) :=
  ⟨fun r => State.readReg_raise s k r, rfl, rfl, fun a => State.byteAt_congr rfl rfl a⟩

/-! ### The two handler shapes -/

/-- All that a register-immediate handler does: it answers, with `f` of the source in the destination (zero for `x0`) and
everything else as before. -/
theorem opImm_spec (f : Word → Word) (rd rs1 : Reg) (s : State) :
    ∃ t, opImm f rd rs1 s = .next t ∧ t.readReg rd = (if rd = 0#5 then 0#32 else f (s.readReg rs1)) ∧
      SameExcept rd s t :=
  ⟨_, rfl, State.readReg_writeReg_self s rd _, State.sameExcept_writeReg s rd _⟩

/-- All that a class without a handler does. -/
theorem noHandler_spec (s : State) :
    ∃ t, noHandler s = .next t ∧ t.status = .faulted .invalidInstruction ∧ SameButStatus s t :=
  ⟨_, rfl, rfl, State.sameButStatus_raise s _⟩

/-- Each of the nine is the one handler shape under one function of the source's value (R86). -/
theorem exec_eq_opImm {i : Instr} (hi : i.implemented = true) :
    ∃ rd rs1 f, i.dest = some rd ∧ i.source = some rs1 ∧ ∀ s, exec i s = opImm f rd rs1 s := by
  cases i with
  | addi rd rs1 imm => exact ⟨rd, rs1, fun a => a + imm, rfl, rfl, fun _ => rfl⟩
  | slti rd rs1 imm => exact ⟨rd, rs1, fun a => truthWord (ltSigned a imm), rfl, rfl, fun _ => rfl⟩
  | sltiu rd rs1 imm => exact ⟨rd, rs1, fun a => truthWord (ltUnsigned a imm), rfl, rfl, fun _ => rfl⟩
  | xori rd rs1 imm => exact ⟨rd, rs1, fun a => a ^^^ imm, rfl, rfl, fun _ => rfl⟩
  | ori rd rs1 imm => exact ⟨rd, rs1, fun a => a ||| imm, rfl, rfl, fun _ => rfl⟩
  | andi rd rs1 imm => exact ⟨rd, rs1, fun a => a &&& imm, rfl, rfl, fun _ => rfl⟩
  | slli rd rs1 shamt _ => exact ⟨rd, rs1, fun a => shiftLeft a shamt, rfl, rfl, fun _ => rfl⟩
  | srli rd rs1 shamt => exact ⟨rd, rs1, fun a => shiftRightLogical a shamt, rfl, rfl, fun _ => rfl⟩
  | srai rd rs1 shamt => exact ⟨rd, rs1, fun a => shiftRightArith a shamt, rfl, rfl, fun _ => rfl⟩
  | load _ => cases hi
  | store _ => cases hi

/-- All that any instruction can do: an implemented one writes its destination register, a word of the LOAD or STORE
class raises. -/
theorem exec_cases (i : Instr) (s : State) :
    (i.implemented = true ∧ ∃ rd v, i.dest = some rd ∧ exec i s = .next (s.writeReg rd v)) ∨
    (i.implemented = false ∧ i.dest = none ∧ exec i s = .next (s.raise .invalidInstruction)) := by
  cases i <;> first
    | exact .inl ⟨rfl, _, _, rfl, rfl⟩
    | exact .inr ⟨rfl, rfl, rfl⟩

end Sys2Proof.Machine
end

