-- ==== Sys2Proof/Laws/PerInstr.lean ====
section
/-! SUPPORT. A family of lemmas made per instruction: where the encoder puts an instruction's selector and register
fields. -/

namespace Sys2Proof.Laws.EncodedFields

/-- The word of an implemented instruction has the major opcode OP-IMM, the row's `funct3`, and its register operands at
`inst[11:7]` and `inst[19:15]`; that of a class without a handler has the class's opcode (30_encoding.md R51, R61, R63,
R72). -/
def Statement (i : Instr) : Prop :=
  match i with
  | .addi rd rs1 _ => opcodeOf (encode i) = 0b0010011#7 ∧ funct3Of (encode i) = 0b000#3 ∧ rdOf (encode i) = rd ∧ rs1Of (encode i) = rs1
  | .slti rd rs1 _ => opcodeOf (encode i) = 0b0010011#7 ∧ funct3Of (encode i) = 0b010#3 ∧ rdOf (encode i) = rd ∧ rs1Of (encode i) = rs1
  | .sltiu rd rs1 _ => opcodeOf (encode i) = 0b0010011#7 ∧ funct3Of (encode i) = 0b011#3 ∧ rdOf (encode i) = rd ∧ rs1Of (encode i) = rs1
  | .xori rd rs1 _ => opcodeOf (encode i) = 0b0010011#7 ∧ funct3Of (encode i) = 0b100#3 ∧ rdOf (encode i) = rd ∧ rs1Of (encode i) = rs1
  | .ori rd rs1 _ => opcodeOf (encode i) = 0b0010011#7 ∧ funct3Of (encode i) = 0b110#3 ∧ rdOf (encode i) = rd ∧ rs1Of (encode i) = rs1
  | .andi rd rs1 _ => opcodeOf (encode i) = 0b0010011#7 ∧ funct3Of (encode i) = 0b111#3 ∧ rdOf (encode i) = rd ∧ rs1Of (encode i) = rs1
  | .slli rd rs1 _ _ => opcodeOf (encode i) = 0b0010011#7 ∧ funct3Of (encode i) = 0b001#3 ∧ rdOf (encode i) = rd ∧ rs1Of (encode i) = rs1
  | .srli rd rs1 _ => opcodeOf (encode i) = 0b0010011#7 ∧ funct3Of (encode i) = 0b101#3 ∧ rdOf (encode i) = rd ∧ rs1Of (encode i) = rs1
  | .srai rd rs1 _ => opcodeOf (encode i) = 0b0010011#7 ∧ funct3Of (encode i) = 0b101#3 ∧ rdOf (encode i) = rd ∧ rs1Of (encode i) = rs1
  | .load _ => opcodeOf (encode i) = 0b0000011#7
  | .store _ => opcodeOf (encode i) = 0b0100011#7

theorem addi (rd rs1 : Reg) (imm : Word) : Statement (.addi rd rs1 imm) := by simp [Statement, encode]
theorem slti (rd rs1 : Reg) (imm : Word) : Statement (.slti rd rs1 imm) := by simp [Statement, encode]
theorem sltiu (rd rs1 : Reg) (imm : Word) : Statement (.sltiu rd rs1 imm) := by simp [Statement, encode]
theorem xori (rd rs1 : Reg) (imm : Word) : Statement (.xori rd rs1 imm) := by simp [Statement, encode]
theorem ori (rd rs1 : Reg) (imm : Word) : Statement (.ori rd rs1 imm) := by simp [Statement, encode]
theorem andi (rd rs1 : Reg) (imm : Word) : Statement (.andi rd rs1 imm) := by simp [Statement, encode]
theorem slli (rd rs1 : Reg) (shamt : BitVec 5) (ignored : BitVec 7) : Statement (.slli rd rs1 shamt ignored) := by simp [Statement, encode]
theorem srli (rd rs1 : Reg) (shamt : BitVec 5) : Statement (.srli rd rs1 shamt) := by simp [Statement, encode]
theorem srai (rd rs1 : Reg) (shamt : BitVec 5) : Statement (.srai rd rs1 shamt) := by simp [Statement, encode]
theorem load (rest : BitVec 25) : Statement (.load rest) := by simp [Statement, encode]
theorem store (rest : BitVec 25) : Statement (.store rest) := by simp [Statement, encode]

end Sys2Proof.Laws.EncodedFields
end

