-- ==== Sys2Proof/Laws/Step.lean ====
section
/-! SUPPORT. What one step can do, said once. -/

namespace Sys2Proof.Machine

/-- A unit that is not running has no step (R80). -/
theorem step_not_running {s t : State} (h : s.status ≠ .running) : step s ≠ .next t := by
  unfold step unitStep
  split <;> simp_all

/-- The step of a running unit whose configuration is legal. -/
theorem step_running {s : State} (hr : s.status = .running) (hc : s.cfg.wellFormed = true) :
    step s = runningStep s := by
  unfold step unitStep
  rw [hr]; simp [hc]

/-- Line 3 on any word: one of the nine instructions writes its destination, every other word raises. -/
theorem executeWord_cases (w : Word) (s : State) :
    (∃ i rd v, decodeWord w = .ok i ∧ i.implemented = true ∧ i.dest = some rd ∧
      executeWord w s = .next (s.writeReg rd v)) ∨
    ((∀ i, decodeWord w = .ok i → i.implemented = false) ∧
      executeWord w s = .next (s.raise .invalidInstruction)) := by
  unfold executeWord
  cases hd : decodeWord w with
  | error e => exact .inr ⟨(fun i h => nomatch h), rfl⟩
  | ok i =>
    obtain ⟨hi, rd, v, h1, h2⟩ | ⟨hi, _, h2⟩ := exec_cases i s
    · exact .inl ⟨i, rd, v, rfl, hi, h1, h2⟩
    · exact .inr ⟨(fun j h => by cases h; exact hi), h2⟩

/-- All that a step can do when it answers a next state: the fetch faults, or the word is one of the nine instructions
and runs, or the word has no handler. -/
theorem step_cases {s t : State} (h : step s = .next t) :
    s.status = .running ∧ s.cfg.wellFormed = true ∧
    ((¬ InRange s.cfg s.pc 4 ∧ t = s.raise .addressFault) ∨
     ∃ w, s.fetch = .ok w ∧
      ((∃ i rd v, decodeWord w = .ok i ∧ i.implemented = true ∧ i.dest = some rd ∧
          t = (s.advancePc.writeReg rd v).haltTest) ∨
       ((∀ i, decodeWord w = .ok i → i.implemented = false) ∧ t = s.advancePc.raise .invalidInstruction))) := by
  have hr : s.status = .running := by
    by_contra hn; exact step_not_running hn h
  have hc : s.cfg.wellFormed = true := by
    by_contra hn
    unfold step unitStep at h
    rw [hr] at h; simp [hn] at h
  refine ⟨hr, hc, ?_⟩
  rw [step_running hr hc] at h
  unfold runningStep at h
  by_cases hin : InRange s.cfg s.pc 4
  · rw [State.fetch_of_inRange hin] at h
    refine .inr ⟨_, State.fetch_of_inRange hin, ?_⟩
    obtain ⟨i, rd, v, h1, h2, h3, h4⟩ | ⟨h1, h2⟩ := executeWord_cases
      (BitVec.ofNat 32 (leValue (s.mem.readBytes s.pc.toNat 4))) s.advancePc
    · simp only [h4, endStep, Host.Outcome.next.injEq] at h
      exact .inl ⟨i, rd, v, h1, h2, h3, h.symm⟩
    · simp only [h2, endStep, Host.Outcome.next.injEq] at h
      refine .inr ⟨h1, ?_⟩
      rw [← h, State.haltTest_of_not_running _ (by simp)]
  · rw [State.fetch_of_not_inRange hin] at h
    simp only [Host.Outcome.next.injEq] at h
    exact .inl ⟨hin, h.symm⟩

/-- A step never writes the configuration or the memory. -/
theorem step_keeps_cfg_mem {s t : State} (h : step s = .next t) : t.cfg = s.cfg ∧ t.mem = s.mem := by
  obtain ⟨_, _, ⟨_, rfl⟩ | ⟨w, _, ⟨i, rd, v, _, _, _, rfl⟩ | ⟨_, rfl⟩⟩⟩ := step_cases h <;> simp

/-- A run whose first step answers `t` goes on from `t`. -/
theorem runSteps_succ_of_next {s t : State} (h : step s = .next t) (n : Nat) :
    runSteps (n + 1) s = runSteps n t := by
  rw [runSteps, h]

/-- A run of `n + 1` steps that answers a state took a first step. -/
theorem step_of_runSteps_succ {n : Nat} {s t : State} (h : runSteps (n + 1) s = .next t) :
    ∃ u, step s = .next u ∧ runSteps n u = .next t := by
  rw [runSteps] at h
  cases hs : step s with
  | next u => rw [hs] at h; exact ⟨u, rfl, h⟩
  | fault r => rw [hs] at h; cases h
  | refused r => rw [hs] at h; cases h

/-- A run stays under its configuration and its memory (R122). -/
theorem runSteps_keeps_cfg_mem : ∀ (n : Nat) {s t : State}, runSteps n s = .next t → t.cfg = s.cfg ∧ t.mem = s.mem
  | 0, s, t, h => by cases h; exact ⟨rfl, rfl⟩
  | n + 1, s, t, h => by
    obtain ⟨u, hu, ht⟩ := step_of_runSteps_succ h
    obtain ⟨hc, hm⟩ := runSteps_keeps_cfg_mem n ht
    obtain ⟨hc', hm'⟩ := step_keeps_cfg_mem hu
    exact ⟨hc.trans hc', hm.trans hm'⟩

end Sys2Proof.Machine
end

