-- ==== Sys2Proof/Tests/Slice0.lean ====
section
/-! SUPPORT. The model's own tests. Expected results are the spec's: its worked examples and vectors
(95_test_vectors.md, section named at each group) or an encoding written out bit by bit from 30_encoding.md R72. -/

namespace Sys2Proof.Tests

open Sys2Proof.Machine

/-! ### Helpers -/

/-- The configuration of 95_test_vectors.md section 2.8. -/
def cfg1000 : Config := { memBase := 0x00001000, memSize := 256 }

/-- The configuration of section 2.7. -/
def cfg16 : Config := { memBase := 0x00001000, memSize := 16 }

/-- The configuration of program P4, whose size is not a multiple of 4. -/
def cfg10 : Config := { memBase := 0x00000100, memSize := 10 }

/-- The configuration of program P3: the memory ends at 2^32. -/
def cfgTop : Config := { memBase := 0xFFFFFFF0, memSize := 16 }

/-- The reset state under `c` with words from `MEM_BASE` on. -/
def withWords (c : Config) (ws : List Word) : State :=
  State.resetWith c (Memory.writeBytes [] c.memBase (ws.flatMap bytesOfWord))

/-- `x6 = v`, everything else as at reset. -/
def withX6 (v : Word) : State := (withWords cfg1000 []).writeReg 6#5 v

/-- A register after one instruction; none where there is no next state. -/
def regAfter (i : Instr) (s : State) (r : Reg) : Option Word :=
  match exec i s with
  | .next t => some (t.readReg r)
  | _ => none

/-- The state after one step; none where there is none. -/
def afterStep (s : State) : Option State :=
  match step s with
  | .next t => some t
  | _ => none

theorem step_of_afterStep {s t : State} (h : afterStep s = some t) : step s = .next t := by
  unfold afterStep at h
  cases hs : step s with
  | next u => rw [hs] at h; cases h; rfl
  | fault r => rw [hs] at h; cases h
  | refused r => rw [hs] at h; cases h

/-- What the outside sees after one step (R146): status, program counter and one register. -/
def seenAfter (s : State) (r : Reg) : Option (Status × Word × Word) :=
  (afterStep s).map fun t => (t.status, t.pc, t.readReg r)

/-! ### Well-formedness: an ill-formed term for each check -/

theorem test_wellFormed_base_multiple_of_4 : Config.wellFormed { memBase := 2, memSize := 4 } = false := by decide
theorem test_wellFormed_size_zero : Config.wellFormed { memBase := 4, memSize := 0 } = false := by decide
theorem test_wellFormed_end_beyond : Config.wellFormed { memBase := 0xFFFFFFF0, memSize := 17 } = false := by decide
theorem test_wellFormed_end_at_2_32 : cfgTop.wellFormed = true := by decide
theorem test_wellFormed_addi_high : (Instr.addi 1#5 2#5 2048#32).wellFormed = false := by decide
theorem test_wellFormed_slti_high : (Instr.slti 1#5 2#5 2048#32).wellFormed = false := by decide
theorem test_wellFormed_sltiu_high : (Instr.sltiu 1#5 2#5 2048#32).wellFormed = false := by decide
theorem test_wellFormed_xori_high : (Instr.xori 1#5 2#5 2048#32).wellFormed = false := by decide
theorem test_wellFormed_ori_high : (Instr.ori 1#5 2#5 2048#32).wellFormed = false := by decide
theorem test_wellFormed_andi_high : (Instr.andi 1#5 2#5 2048#32).wellFormed = false := by decide
theorem test_wellFormed_imm_low : (Instr.addi 1#5 2#5 0xFFFFF7FF#32).wellFormed = false := by decide
theorem test_wellFormed_imm_extremes :
    (Instr.addi 1#5 2#5 0xFFFFF800#32).wellFormed = true ∧ (Instr.andi 1#5 2#5 2047#32).wellFormed = true := by decide
theorem test_asm_register_range : (AsmLine.mk .addi 32 0 0).assemble = none ∧ (AsmLine.mk .srai 0 32 0).assemble = none := by
  decide
theorem test_asm_imm_range : (AsmLine.mk .ori 1 1 2048).assemble = none ∧ (AsmLine.mk .ori 1 1 (-2049)).assemble = none := by
  decide
theorem test_asm_shamt_range : (AsmLine.mk .slli 1 1 32).assemble = none ∧ (AsmLine.mk .srai 1 1 (-1)).assemble = none := by
  decide

/-! ### Decoding: each constructor's word written out bit by bit from R72 (imm or funct7 and shamt, rs1, funct3, rd,
opcode), and the vectors of sections 2.1, 2.3 to 2.5 -/

theorem test_decode_addi : decodeWord 0b000000000011_00110_000_00101_0010011#32 = .ok (.addi 5#5 6#5 3#32) := by decide
theorem test_decode_slti : decodeWord 0b111111111111_00110_010_00101_0010011#32 = .ok (.slti 5#5 6#5 0xFFFFFFFF#32) := by decide
theorem test_decode_sltiu : decodeWord 0b100000000000_00110_011_00101_0010011#32 = .ok (.sltiu 5#5 6#5 0xFFFFF800#32) := by decide
theorem test_decode_xori : decodeWord 0b010101010101_00110_100_00101_0010011#32 = .ok (.xori 5#5 6#5 0x555#32) := by decide
theorem test_decode_ori : decodeWord 0b000011110000_00110_110_00101_0010011#32 = .ok (.ori 5#5 6#5 0xF0#32) := by decide
theorem test_decode_andi : decodeWord 0b011111111111_00110_111_00101_0010011#32 = .ok (.andi 5#5 6#5 0x7FF#32) := by decide
theorem test_decode_slli : decodeWord 0b000000011111_00110_001_00101_0010011#32 = .ok (.slli 5#5 6#5 31#5 0#7) := by decide
theorem test_decode_srli : decodeWord 0b000000011111_00110_101_00101_0010011#32 = .ok (.srli 5#5 6#5 31#5) := by decide
theorem test_decode_srai : decodeWord 0b010000011111_00110_101_00101_0010011#32 = .ok (.srai 5#5 6#5 31#5) := by decide
theorem test_decode_slli_ignored :
    decodeWord 0b1111111_00100_00001_001_01010_0010011#32 = .ok (.slli 10#5 1#5 4#5 0b1111111#7) := by decide
theorem test_decode_load : decodeWord 0b0000000_00000_00010_010_00101_0000011#32 =
    .ok (.load 0b0000000_00000_00010_010_00101#25) := by decide
theorem test_decode_store : decodeWord 0b0000000_00101_00010_010_00000_0100011#32 =
    .ok (.store 0b0000000_00101_00010_010_00000#25) := by decide
theorem test_decode_bad_funct7 : decodeWord 0x02125593#32 = .error (.noRightShift 1#7) ∧
    decodeWord 0xC0125613#32 = .error (.noRightShift 0b1100000#7) := by decide
theorem test_decode_classes :
    decodeWord 0x00000063#32 = .error (.noHandler .branch) ∧ decodeWord 0x0000006F#32 = .error (.noHandler .jal) ∧
    decodeWord 0x00008067#32 = .error (.noHandler .jalr) ∧ decodeWord 0x123450B7#32 = .error (.noHandler .lui) ∧
    decodeWord 0x00000097#32 = .error (.noHandler .auipc) ∧ decodeWord 0x002081B3#32 = .error (.noHandler .op) ∧
    decodeWord 0x00000073#32 = .error (.noHandler .system) ∧ decodeWord 0x0FF0000F#32 = .error (.noHandler .miscMem) ∧
    decodeWord 0x00000000#32 = .error (.noHandler .other) ∧ decodeWord 0xFFFFFFFF#32 = .error (.noHandler .other) := by
  decide
/-- The source's one word, as memory holds it (program P1). -/
theorem test_decode_bytes : decode [0x93#8, 0x00#8, 0x10#8, 0x00#8, 0x13#8] = .ok (.addi 1#5 0#5 1#32, [0x13#8]) := by
  decide
theorem test_decode_truncated : decode [0x93#8, 0x00#8, 0x10#8] = .error .truncated := by decide
/-- The words of R69's examples. -/
theorem test_pseudo : Pseudo.nop.assemble.map encode = some 0x00000013#32 ∧
    (Pseudo.mv 5 6).assemble.map encode = some 0x00030293#32 ∧ (Pseudo.li 1 1).assemble.map encode = some 0x00100093#32 ∧
    (Pseudo.not 7 1).assemble.map encode = some 0xFFF0C393#32 ∧
    (Pseudo.seqz 6 4).assemble.map encode = some 0x00123313#32 := by decide
/-- Lines of sections 2.4 and 2.5. -/
theorem test_assemble : (AsmLine.mk .srai 5 6 31).assemble.map encode = some 0x41F35293#32 ∧
    (AsmLine.mk .slti 5 6 (-2048)).assemble.map encode = some 0x80032293#32 ∧
    (AsmLine.mk .slli 10 1 31).assemble.map encode = some 0x01F09513#32 := by decide
theorem test_tableWord : decodeTableWord 32 0x40125613 = some (.srai 12#5 4#5 1#5) ∧
    decodeTableWord 32 0x20125613 = none := by decide

/-! ### Fields and immediates (sections 2.1, 2.2) -/

theorem test_fields : opcodeOf 0xFFF0C393#32 = 0b0010011#7 ∧ rdOf 0xFFF0C393#32 = 7#5 ∧ funct3Of 0xFFF0C393#32 = 0b100#3 ∧
    rs1Of 0xFFF0C393#32 = 1#5 ∧ rs2Of 0xFFF0C393#32 = 31#5 ∧ funct7Of 0xFFF0C393#32 = 0b1111111#7 ∧
    shamtOf 0xFFF0C393#32 = 31#5 := by decide

theorem test_immediates_00100093 : [immI 0x00100093#32, immS 0x00100093#32, immB 0x00100093#32, immU 0x00100093#32, immJ 0x00100093#32] =
    [0x00000001#32, 0x00000001#32, 0x00000800#32, 0x00100000#32, 0x00000800#32] := by decide
theorem test_immediates_FFF00213 : [immI 0xFFF00213#32, immS 0xFFF00213#32, immB 0xFFF00213#32, immU 0xFFF00213#32, immJ 0xFFF00213#32] =
    [0xFFFFFFFF#32, 0xFFFFFFE4#32, 0xFFFFF7E4#32, 0xFFF00000#32, 0xFFF00FFE#32] := by decide
theorem test_immediates_FE512E23 : [immI 0xFE512E23#32, immS 0xFE512E23#32, immB 0xFE512E23#32, immU 0xFE512E23#32, immJ 0xFE512E23#32] =
    [0xFFFFFFE5#32, 0xFFFFFFFC#32, 0xFFFFF7FC#32, 0xFE512000#32, 0xFFF12FE4#32] := by decide
theorem test_immediates_7E000FE3 : [immI 0x7E000FE3#32, immS 0x7E000FE3#32, immB 0x7E000FE3#32, immU 0x7E000FE3#32, immJ 0x7E000FE3#32] =
    [0x000007E0#32, 0x000007FF#32, 0x00000FFE#32, 0x7E000000#32, 0x000007E0#32] := by decide
theorem test_immediates_123450B7 : [immI 0x123450B7#32, immS 0x123450B7#32, immB 0x123450B7#32, immU 0x123450B7#32, immJ 0x123450B7#32] =
    [0x00000123#32, 0x00000121#32, 0x00000920#32, 0x12345000#32, 0x00045922#32] := by decide
theorem test_immediates_7FFFF06F : [immI 0x7FFFF06F#32, immS 0x7FFFF06F#32, immB 0x7FFFF06F#32, immU 0x7FFFF06F#32, immJ 0x7FFFF06F#32] =
    [0x000007FF#32, 0x000007E0#32, 0x000007E0#32, 0x7FFFF000#32, 0x000FFFFE#32] := by decide
theorem test_immediates_30529073 : [immI 0x30529073#32, immS 0x30529073#32, immB 0x30529073#32, immU 0x30529073#32, immJ 0x30529073#32] =
    [0x00000305#32, 0x00000300#32, 0x00000300#32, 0x30529000#32, 0x00029B04#32] := by decide

/-! ### The nine instructions (sections 2.3 to 2.6): `x5` after, with the given value in `x6` before -/

theorem test_addi_wraps : regAfter (.addi 5#5 6#5 1#32) (withX6 0x7FFFFFFF#32) 5#5 = some 0x80000000#32 := by decide
theorem test_addi_carry : regAfter (.addi 5#5 6#5 0xFFFFF800#32) (withX6 0x00000800#32) 5#5 = some 0x00000000#32 := by decide
theorem test_slti_signed : regAfter (.slti 5#5 6#5 0xFFFFFFFF#32) (withX6 0x00000005#32) 5#5 = some 0x00000000#32 := by decide
theorem test_slti_least : regAfter (.slti 5#5 6#5 0xFFFFF800#32) (withX6 0xFFFFF7FF#32) 5#5 = some 0x00000001#32 := by decide
theorem test_sltiu_unsigned : regAfter (.sltiu 5#5 6#5 1#32) (withX6 0xFFFFFFFF#32) 5#5 = some 0x00000000#32 := by decide
theorem test_sltiu_extended : regAfter (.sltiu 5#5 6#5 0xFFFFFFFF#32) (withX6 0x00000005#32) 5#5 = some 0x00000001#32 := by decide
theorem test_xori : regAfter (.xori 5#5 6#5 0xFFFFF800#32) (withX6 0x12345678#32) 5#5 = some 0xEDCBAE78#32 := by decide
theorem test_xori_low : regAfter (.xori 5#5 6#5 0x7FF#32) (withX6 0x12345678#32) 5#5 = some 0x12345187#32 := by decide
theorem test_ori : regAfter (.ori 5#5 6#5 0xFFFFF800#32) (withX6 0x12345678#32) 5#5 = some 0xFFFFFE78#32 := by decide
theorem test_andi : regAfter (.andi 5#5 6#5 0xFFFFF800#32) (withX6 0x12345678#32) 5#5 = some 0x12345000#32 := by decide
theorem test_andi_low : regAfter (.andi 5#5 6#5 0xFF#32) (withX6 0x12345678#32) 5#5 = some 0x00000078#32 := by decide
theorem test_slli : regAfter (.slli 5#5 6#5 8#5 0#7) (withX6 0x12345678#32) 5#5 = some 0x34567800#32 := by decide
theorem test_slli_31 : regAfter (.slli 5#5 6#5 31#5 0b0100000#7) (withX6 0x00000005#32) 5#5 = some 0x80000000#32 := by decide
theorem test_srli : regAfter (.srli 5#5 6#5 1#5) (withX6 0xFFFFFFF8#32) 5#5 = some 0x7FFFFFFC#32 := by decide
theorem test_srli_31 : regAfter (.srli 5#5 6#5 31#5) (withX6 0x80000000#32) 5#5 = some 0x00000001#32 := by decide
theorem test_srai_rounds_down : regAfter (.srai 5#5 6#5 1#5) (withX6 0xFFFFFFF9#32) 5#5 = some 0xFFFFFFFC#32 := by decide
theorem test_srai_4 : regAfter (.srai 5#5 6#5 4#5) (withX6 0x87654321#32) 5#5 = some 0xF8765432#32 := by decide

/-- `ADDI x0, x6, 1` and `SLTIU x0, x6, 1` discard their result; `XORI x6, x6, -1` reads before it writes. -/
theorem test_rd_x0 : regAfter (.addi 0#5 6#5 1#32) (withX6 7#32) 0#5 = some 0#32 ∧
    regAfter (.sltiu 0#5 6#5 1#32) (withX6 0#32) 0#5 = some 0#32 := by decide
theorem test_rd_rs1 : regAfter (.xori 6#5 6#5 0xFFFFFFFF#32) (withX6 0x1234#32) 6#5 = some 0xFFFFEDCB#32 := by decide
theorem test_rs1_x0 : regAfter (.addi 5#5 0#5 0xFFFFFFFB#32) (withX6 7#32) 5#5 = some 0xFFFFFFFB#32 := by decide

/-- A LOAD word is not executed as SLTI: `x5` keeps its 9 (section 2.8, program P5). -/
theorem test_load_raises : seenAfter ((withWords cfg1000 [0x00012283#32]).writeReg 5#5 9#32) 5#5 =
    some (.faulted .invalidInstruction, 0x00001004#32, 9#32) := by decide
theorem test_store_raises : seenAfter ((withWords cfg1000 [0x00512023#32]).writeReg 5#5 9#32) 5#5 =
    some (.faulted .invalidInstruction, 0x00001004#32, 9#32) := by decide

/-! ### Steps and faults (section 2.8, programs P3, P4, P6) -/

theorem test_step_addi : seenAfter (withWords cfg1000 [0x00100093#32]) 1#5 =
    some (.running, 0x00001004#32, 1#32) := by decide
theorem test_step_zero_word : seenAfter (withWords cfg1000 []) 2#5 =
    some (.faulted .invalidInstruction, 0x00001004#32, 0x00001100#32) := by decide
theorem test_step_jal : seenAfter (withWords cfg1000 [0x0000006F#32]) 0#5 =
    some (.faulted .invalidInstruction, 0x00001004#32, 0#32) := by decide
theorem test_step_bad_funct7 : seenAfter ((withWords cfg1000 [0x20125613#32]).writeReg 4#5 0xFFFFFFF8#32) 12#5 =
    some (.faulted .invalidInstruction, 0x00001004#32, 0#32) := by decide
theorem test_step_off_the_top : seenAfter { withWords cfg1000 [] with pc := 0x00001100#32 } 0#5 =
    some (.faulted .addressFault, 0x00001100#32, 0#32) := by decide
theorem test_step_partial_word : seenAfter { withWords cfg10 [] with pc := 0x00000108#32 } 2#5 =
    some (.faulted .addressFault, 0x00000108#32, 0x0000010A#32) := by decide
/-- The last instruction of P3: the write is kept, the unit halts. -/
theorem test_step_halt : seenAfter { withWords cfgTop [0#32, 0#32, 0#32, 0xFF010113#32] with pc := 0xFFFFFFFC#32 } 2#5 =
    some (.halted, 0x00000000#32, 0xFFFFFFF0#32) := by decide
/-- P3b: an illegal word there faults and does not halt. -/
theorem test_step_top_illegal : seenAfter { withWords cfgTop [0#32, 0#32, 0#32, 0x00000073#32] with pc := 0xFFFFFFFC#32 }
    2#5 = some (.faulted .invalidInstruction, 0x00000000#32, 0#32) := by decide
theorem test_step_final : step { withWords cfg1000 [] with status := .halted } = .fault .halted ∧
    step { withWords cfg1000 [] with status := .faulted .addressFault } = .fault (.stopped .addressFault) := ⟨rfl, rfl⟩
theorem test_step_bad_configuration :
    step (withWords { memBase := 2, memSize := 64 } []) = .refused .badConfiguration := rfl
/-- Bytes `93 00 10 00` at the pc are `ADDI x1, x0, 1` (P6): the host's placement gives the same. -/
theorem test_withFetchWord : (afterStep (State.reset.withFetchWord 32 0x00100093)).map (fun t => t.readReg 1#5) =
    some 1#32 := by decide
theorem test_result : (withWords cfg1000 []).result = .continue_ ∧ ((withWords cfg1000 []).raise .addressFault).result =
    .fault .addressFault ∧ (withWords cfg1000 []).busRequest = (0x00001000#32, .word) := by decide

/-! ### Memory (section 2.7) -/

/-- The memory after `MemWrite(0x00001000, 8, 0x0102030405060708)`. -/
def mem8 : State := { withWords cfg16 [] with mem := Memory.writeBytes [] 0x1000 (leBytes 8 0x0102030405060708) }

theorem test_memWrite_8 : ((withWords cfg16 []).memWrite 0x00001000#32 .double 0x0102030405060708) = .ok mem8 := by decide
theorem test_memRead_4 : mem8.memRead 0x00001000#32 .word = .ok 0x05060708 ∧
    mem8.memRead 0x00001004#32 .word = .ok 0x01020304 := by decide
theorem test_memRead_misaligned : mem8.memRead 0x00001001#32 .word = .ok 0x04050607 ∧
    mem8.memRead 0x00001003#32 .half = .ok 0x0405 ∧ mem8.memRead 0x00001007#32 .byte = .ok 0x01 := by decide
theorem test_memRead_8 : mem8.memRead 0x00001000#32 .double = .ok 0x0102030405060708 := by decide
/-- The value is reduced modulo `2^(8n)`, whatever its sign. -/
theorem test_memWrite_reduces : (((withWords cfg16 []).memWrite 0x0000100A#32 .half 0x12345).toOption.map fun t =>
    t.memRead 0x0000100A#32 .half) = some (.ok 0x2345) ∧
    (((withWords cfg16 []).memWrite 0x0000100C#32 .word (-1)).toOption.map fun t => t.memRead 0x0000100C#32 .double) =
    some (.error .addressFault) := by decide
theorem test_range_check : mem8.memRead 0x00000FFF#32 .byte = .error .addressFault ∧
    mem8.memRead 0x00000FFE#32 .word = .error .addressFault ∧ mem8.memRead 0x0000100F#32 .byte = .ok 0 ∧
    mem8.memRead 0x0000100F#32 .half = .error .addressFault ∧ mem8.memRead 0x0000100C#32 .word = .ok 0 ∧
    mem8.memRead 0x0000100D#32 .word = .error .addressFault ∧ mem8.memRead 0x00001009#32 .double = .error .addressFault ∧
    mem8.memRead 0x00001010#32 .byte = .error .addressFault := by decide
theorem test_range_no_wrap : (withWords cfgTop []).memRead 0xFFFFFFFC#32 .word = .ok 0 ∧
    (withWords cfgTop []).memRead 0xFFFFFFFE#32 .word = .error .addressFault ∧
    (withWords cfgTop []).memRead 0x00000000#32 .byte = .error .addressFault := by decide
/-- Writing the value an unlisted address reads as removes the entry. -/
theorem test_memory_canonical : Memory.writeByte (Memory.writeByte [] 5 7#8) 5 0#8 = [] ∧
    Memory.wf [(5, 1#8), (4, 1#8)] = false ∧ Memory.wf [(5, 0#8)] = false := by decide

/-! ### Image and reset (section 2.7, R25) -/

/-- The image of P6. -/
def image6 : List Byte := [0x93#8, 0x00#8, 0x10#8, 0x00#8, 0x13#8, 0x01#8]

theorem test_launch_image : ((launch cfg16 image6).toOption.map fun s =>
    [s.memRead 0x00001000#32 .word, s.memRead 0x00001004#32 .word, s.memRead 0x00001008#32 .word]) =
    some [.ok 0x00100093, .ok 0x00000113, .ok 0] := by decide
theorem test_launch_too_large : launch cfg16 (List.replicate 17 1#8) = .error .imageTooLarge := by decide
theorem test_launch_bad_configuration : launch { memBase := 2, memSize := 64 } [] = .error .badConfiguration := by decide
theorem test_reset_values : State.reset.pc = 0x00001000#32 ∧ State.reset.readReg 2#5 = 0x00001100#32 ∧
    State.reset.readReg 31#5 = 0#32 ∧ State.reset.status = .running := by decide
/-- The stack pointer when the memory ends at 2^32 (D28). -/
theorem test_reset_sp_wraps : (withWords cfgTop []).readReg 2#5 = 0#32 ∧ (withWords cfgTop []).pc = 0xFFFFFFF0#32 := by
  decide

/-! ### Witnesses: for each statement with hypotheses, a state and operands that meet them -/

/-- A running state about to step `ADDI x1, x0, 1`. -/
def sAddi : State := withWords cfg1000 [0x00100093#32]
/-- A running state about to step `ADDI x0, x0, 0`. -/
def sNop : State := withWords cfg1000 [0x00000013#32]
/-- A running state about to step the zero word. -/
def sZero : State := withWords cfg1000 []
/-- A running state about to step `ADDI x2, x2, -16` at `0xFFFFFFFC`. -/
def sTop : State := { withWords cfgTop [0#32, 0#32, 0#32, 0xFF010113#32] with pc := 0xFFFFFFFC#32 }
/-- A running state about to step `ADDI x0, x0, 0` at `0xFFFFFFFC`. -/
def sTopNop : State := { withWords cfgTop [0#32, 0#32, 0#32, 0x00000013#32] with pc := 0xFFFFFFFC#32 }
/-- A running state about to step an illegal word at `0xFFFFFFFC`. -/
def sTopIllegal : State := { withWords cfgTop [0#32, 0#32, 0#32, 0x00000073#32] with pc := 0xFFFFFFFC#32 }
/-- A running state whose fetch is out of range at the top. -/
def sOff : State := { withWords cfg1000 [] with pc := 0x00001100#32 }
/-- A running state whose fetch straddles the top. -/
def sStraddle : State := { withWords cfg10 [] with pc := 0x00000108#32 }

theorem witness_ImmediateBits_ranges : (0 < 5 ∧ 4 < 5) ∧ (6 < 7) ∧ (11 < 12) ∧ (12 ≤ 12 ∧ 12 < 32) ∧ (20 ≤ 31 ∧ 31 < 32) := by
  decide
theorem witness_ImmediateIBits_users : decodeWord 0x80033293#32 = .ok (.sltiu 5#5 6#5 0xFFFFF800#32) ∧
    decodeWord 0x40125613#32 = .ok (.srai 12#5 4#5 1#5) := by decide
theorem witness_ShiftAmountIsLowImmediateBits : decodeWord 0x01F09513#32 = .ok (.slli 10#5 1#5 31#5 0#7) ∧
    decodeWord 0x01F35293#32 = .ok (.srli 5#5 6#5 31#5) ∧ decodeWord 0x40035293#32 = .ok (.srai 5#5 6#5 0#5) := by decide
theorem witness_IllegalWordsAreTheRest : hasHandler 0x20125613#32 = false ∧ hasHandler 0x00125593#32 = true := by decide
theorem witness_EncodeThenDecodeIsIdentity : (Instr.addi 31#5 31#5 0xFFFFF800#32).wellFormed = true ∧
    (Instr.sltiu 0#5 0#5 0x7FF#32).wellFormed = true ∧ (Instr.slli 1#5 2#5 31#5 127#7).wellFormed = true := by decide
theorem witness_DecodeThenEncodeIsIdentity : decodeWord 0x800F8F93#32 = .ok (.addi 31#5 31#5 0xFFFFF800#32) := by decide
theorem witness_AssemblerLineRangesAndFields :
    (AsmLine.mk .addi 31 0 (-2048)).assemble = some (.addi 31#5 0#5 0xFFFFF800#32) ∧
    (AsmLine.mk .srai 0 31 31).assemble = some (.srai 0#5 31#5 31#5) ∧
    (AsmLine.mk .slli 1 1 0).assemble = some (.slli 1#5 1#5 0#5 0#7) := by decide
theorem witness_AddiMeaning : 0x80030293#32 &&& 0x0000707F#32 = 0x00000013#32 := by decide
theorem witness_HandlersHaveOneShape : (Instr.slli 0#5 0#5 31#5 1#7).implemented = true ∧
    (Instr.andi 31#5 31#5 0#32).implemented = true := by decide
theorem witness_LoadClassRaises : opcodeOf 0x00012283#32 = 0b0000011#7 := by decide
theorem witness_StoreClassRaises : opcodeOf 0x00512023#32 = 0b0100011#7 := by decide
theorem witness_NamedClassesRaise : 0xFFFFFFFF#32 ∈ [0x00012283#32, 0xFFFFFFFF#32] := by decide
theorem witness_RegisterZeroReadsZero : step sAddi = .next { sAddi.writeReg 1#5 1#32 with pc := 0x00001004#32 } ∧
    exec (.addi 0#5 6#5 1#32) sAddi = .next sAddi := ⟨step_of_afterStep (by decide), rfl⟩
theorem witness_ZeroDestinationOnlyAdvances : (sNop.status = .running ∧ sNop.cfg.wellFormed = true ∧
    sNop.fetch = .ok 0x00000013#32 ∧ hasHandler 0x00000013#32 = true ∧ rdOf 0x00000013#32 = 0#5) ∧
    (sTopNop.status = .running ∧ sTopNop.cfg.wellFormed = true ∧ sTopNop.fetch = .ok 0x00000013#32 ∧
    sTopNop.pc + 4#32 = 0#32) := by decide
theorem witness_StepWritesOnlyTheDestination : step sAddi = .next { sAddi.writeReg 1#5 1#32 with pc := 0x00001004#32 } ∧
    State.readReg { sAddi.writeReg 1#5 1#32 with pc := 0x00001004#32 } 1#5 ≠ sAddi.readReg 1#5 :=
  ⟨step_of_afterStep (by decide), by decide⟩
theorem witness_StepRunsTheDecodedInstruction : sAddi.status = .running ∧ sAddi.cfg.wellFormed = true ∧
    sAddi.fetch = .ok 0x00100093#32 ∧ decodeWord 0x00100093#32 = .ok (.addi 1#5 0#5 1#32) := by decide
theorem witness_ByteOrderIsLittleEndian : (sAddi.cfg.wellFormed = true ∧ sAddi.fetch = .ok 0x00100093#32 ∧ 3 < 4) ∧
    (mem8.cfg.wellFormed = true ∧ mem8.memRead 0x00001008#32 .double = .ok 0 ∧ 7 < widthBytes .double) ∧
    ((withWords cfg16 []).mem.wf = true ∧
      (withWords cfg16 []).memWrite 0x00001000#32 .double 0x0102030405060708 = .ok mem8) := by decide
theorem witness_FetchReadsTheWordOrFaults_in_range : (sTop.cfg.wellFormed = true ∧ sTop.cfg.memBase ≤ sTop.pc.toNat ∧
    sTop.pc.toNat + 4 ≤ sTop.cfg.memBase + sTop.cfg.memSize) ∧ (launch cfg16 image6).isOk = true ∧
    (sTop.pc.toNat % 4 = 0 ∧ (afterStep sTop).isSome = true) := by decide
theorem witness_RaiseStopsTheStep : (afterStep sOff).map (·.status) = some (.faulted .addressFault) ∧
    (afterStep sZero).map (·.status) = some (.faulted .invalidInstruction) := by decide
theorem witness_FetchReadsTheWordOrFaults : (sStraddle.status = .running ∧ sStraddle.cfg.wellFormed = true ∧
    ¬ (sStraddle.cfg.memBase ≤ sStraddle.pc.toNat ∧
      sStraddle.pc.toNat + 4 ≤ sStraddle.cfg.memBase + sStraddle.cfg.memSize)) ∧
    (afterStep sOff).map (·.status) = some (.faulted .addressFault) := by decide
theorem witness_WordWithoutHandlerFaults : (sZero.status = .running ∧ sZero.cfg.wellFormed = true ∧
    sZero.fetch = .ok 0#32 ∧ hasHandler 0#32 = false) ∧
    (sAddi.fetch = .ok 0x00100093#32 ∧ hasHandler 0x00100093#32 = true) := by decide
theorem witness_HaltExactlyAtTheWrap : step sTop =
    .next { sTop.writeReg 2#5 0xFFFFFFF0#32 with pc := 0#32, status := .halted } := step_of_afterStep (by decide)
theorem witness_IllegalWordAtTheTopIsNotHalt : sTopIllegal.status = .running ∧ sTopIllegal.cfg.wellFormed = true ∧
    sTopIllegal.pc = 0xFFFFFFFC#32 ∧ sTopIllegal.fetch = .ok 0x00000073#32 ∧ hasHandler 0x00000073#32 = false := by decide
theorem witness_FinalStatusHasNoStep : State.status { sZero with status := .halted } = .halted ∧
    (sZero.raise .invalidInstruction).status = .faulted .invalidInstruction ∧
    (afterStep sZero).isSome = true := by decide
theorem witness_EveryStepReportsItsResult : sZero.status = .running ∧ sZero.cfg.wellFormed = true := by decide
theorem witness_PcAdvancesByFourOnly : ((afterStep sZero).isSome = true ∧ sZero.fetch = .ok 0#32) ∧
    ((afterStep sTop).isSome = true ∧ sTop.fetch = .ok 0xFF010113#32) ∧
    ((afterStep sOff).isSome = true ∧ sOff.fetch = .error .addressFault) := by decide
theorem witness_exec_answers : exec (.load 0#25) sZero = .next (sZero.raise .invalidInstruction) := rfl
theorem witness_MemoryIsConstantDuringARun : launch cfg16 image6 = .ok (State.resetWith cfg16
      (Memory.writeBytes [] 0x1000 image6)) ∧ cfg16.memBase ≤ (0x0000100F#32).toNat ∧
    (0x0000100F#32).toNat < cfg16.memBase + cfg16.memSize ∧ cfg16.memBase ≤ (0x00001000#32).toNat := by decide
theorem witness_runSteps_answers : runSteps 1 sAddi = .next { sAddi.writeReg 1#5 1#32 with pc := 0x00001004#32 } :=
  runSteps_succ_of_next (step_of_afterStep (by decide)) 0
theorem witness_MemReadIsTheByteSum : mem8.cfg.wellFormed = true ∧ InRange mem8.cfg 0x0000100C#32 (widthBytes .word) ∧
    InRange mem8.cfg 0x0000100F#32 (widthBytes .byte) ∧ ¬ InRange mem8.cfg 0x0000100D#32 (widthBytes .word) ∧
    ¬ InRange mem8.cfg 0x00000FFF#32 (widthBytes .byte) := by decide
theorem witness_MemWriteStoresItsBytes : mem8.cfg.wellFormed = true ∧ mem8.mem.wf = true ∧
    InRange mem8.cfg 0x0000100C#32 (widthBytes .word) ∧ ¬ InRange mem8.cfg 0x0000100E#32 (widthBytes .word) ∧
    ¬ ((0x0000100C#32).toNat ≤ (0x0000100B#32).toNat ∧ (0x0000100B#32).toNat < (0x0000100C#32).toNat + widthBytes .word) := by
  decide
theorem witness_ReadBackAtAnyWidth : (withWords cfg16 []).cfg.wellFormed = true ∧ (withWords cfg16 []).mem.wf = true ∧
    (withWords cfg16 []).memWrite 0x00001000#32 .double 0x0102030405060708 = .ok mem8 ∧
    0 + widthBytes .double ≤ widthBytes .double ∧ 7 + widthBytes .byte ≤ widthBytes .double := by decide
theorem witness_AccessInRangeIffEveryByteIs : mem8.memRead 0x0000100F#32 .byte = .ok 0 ∧ 0 < widthBytes .byte := by decide
theorem witness_ValidAddressesAreTheMemory : sZero.cfg.wellFormed = true ∧
    sZero.cfg.memBase + sZero.cfg.memSize < 2 ^ 32 ∧ sZero.byteAt 0x000010FF#32 = .ok 0 ∧
    sZero.byteAt 0x00001100#32 = .error .addressFault := by decide
theorem witness_FetchSeesTheWordJustWritten : sZero.cfg.wellFormed = true ∧ sZero.mem.wf = true ∧
    sZero.memWrite sZero.pc .word (0x00100093#32).toNat = .ok sAddi := by decide
theorem witness_LaunchStateHasResetValues : launch cfgTop [] = .ok (withWords cfgTop []) := by decide
theorem witness_OversizedImageIsRefused : cfg16.wellFormed = true ∧ cfg16.memSize < (List.replicate 17 1#8).length ∧
    (List.replicate 16 1#8).length ≤ cfg16.memSize := by decide
theorem witness_ResetOfAUsedUnit : (sZero.raise .addressFault).cfg.wellFormed = true := by decide
theorem witness_LaunchStateMeetsInvariant : launch cfg16 image6 = .ok (State.resetWith cfg16
    (Memory.writeBytes [] 0x1000 image6)) := by decide
theorem witness_EveryStepKeepsTheInvariant : sTop.Inv ∧
    step sTop = .next { sTop.writeReg 2#5 0xFFFFFFF0#32 with pc := 0#32, status := .halted } :=
  ⟨⟨by decide, ⟨by decide, by decide⟩, by decide, show _ ∧ _ by decide⟩, step_of_afterStep (by decide)⟩
/-- A final state that meets the invariant through its last clause: the zero word at `0x00001000` has no handler. -/
theorem witness_invariant_after_invalidInstruction : State.PhaseOk (sZero.advancePc.raise .invalidInstruction) :=
  ⟨0, by decide, by decide⟩
theorem witness_EveryRunEnds : sAddi.status = .running ∧ sAddi.cfg.wellFormed = true := by decide
/-- `s'` differs from `s` in memory, past the word at `pc`. -/
theorem witness_StepReadsOnlyTheFetchedWord :
    ((withWords cfg1000 [0x00100093#32, 1#32]).fetch = sAddi.fetch ∧
    (withWords cfg1000 [0x00100093#32, 1#32]).mem ≠ sAddi.mem ∧
    (withWords cfg1000 [0x00100093#32, 1#32]).pc = sAddi.pc ∧
    (withWords cfg1000 [0x00100093#32, 1#32]).cfg = sAddi.cfg ∧
    (withWords cfg1000 [0x00100093#32, 1#32]).status = sAddi.status) ∧
    (∀ r, (withWords cfg1000 [0x00100093#32, 1#32]).readReg r = sAddi.readReg r) ∧
    step sAddi = .next { sAddi.writeReg 1#5 1#32 with pc := 0x00001004#32 } :=
  ⟨by decide, fun _ => rfl, step_of_afterStep (by decide)⟩

end Sys2Proof.Tests
end

section
/-! Register 0 and what a step reads (10_state.md R12, R19). -/

namespace Sys2Proof.Machine

/-- A word of a class without a handler raises, in every state (R89). -/
theorem exec_of_not_implemented {i : Instr} (hi : i.implemented = false) (s : State) :
    exec i s = .next (s.raise .invalidInstruction) := by
  obtain ⟨hi', -⟩ | ⟨-, -, hs⟩ := exec_cases i s
  · simp [hi] at hi'
  · exact hs

/-! ### Two states that differ in memory alone -/

/-- The states agree on everything but the memory. -/
structure SameButMemory (s s' : State) : Prop where
  cfg : s'.cfg = s.cfg
  pc : s'.pc = s.pc
  status : s'.status = s.status
  regs : ∀ r, s'.readReg r = s.readReg r

namespace SameButMemory

variable {s s' : State}

theorem advancePc (h : SameButMemory s s') : SameButMemory s.advancePc s'.advancePc where
  cfg := h.cfg
  pc := by simp [h.pc]
  status := h.status
  regs := h.regs

theorem raise (h : SameButMemory s s') (k : FaultKind) : SameButMemory (s.raise k) (s'.raise k) where
  cfg := h.cfg
  pc := h.pc
  status := rfl
  regs := h.regs

theorem writeReg (h : SameButMemory s s') (rd : Reg) (v : Word) :
    SameButMemory (s.writeReg rd v) (s'.writeReg rd v) where
  cfg := by simp [h.cfg]
  pc := by simp [h.pc]
  status := by simp [h.status]
  regs r := by simp [State.readReg_writeReg, h.regs]

theorem haltTest (h : SameButMemory s s') : SameButMemory s.haltTest s'.haltTest where
  cfg := by simp [h.cfg]
  pc := by simp [h.pc]
  status := by simp [State.haltTest_status, h.status, h.pc]
  regs r := by simp [h.regs]

/-- A handler's result is a function of the source register alone, so one value is written in both states (R86). -/
theorem opImm (h : SameButMemory s s') (f : Word → Word) (rd rs1 : Reg) :
    ∃ t t', opImm f rd rs1 s = .next t ∧ opImm f rd rs1 s' = .next t' ∧ SameButMemory t t' :=
  ⟨_, _, rfl, rfl, by simpa [h.regs rs1] using h.writeReg rd (f (s.readReg rs1))⟩

theorem exec (h : SameButMemory s s') (i : Instr) :
    ∃ t t', exec i s = .next t ∧ exec i s' = .next t' ∧ SameButMemory t t' := by
  cases hi : i.implemented with
  | true =>
    obtain ⟨rd, rs1, f, -, -, hf⟩ := exec_eq_opImm hi
    simpa only [hf] using h.opImm f rd rs1
  | false =>
    exact ⟨_, _, exec_of_not_implemented hi s, exec_of_not_implemented hi s', h.raise _⟩

/-- Line 3 of the step on one word in both states (R85, R90). -/
theorem executeWord (h : SameButMemory s s') (w : Word) :
    ∃ t t', executeWord w s = .next t ∧ executeWord w s' = .next t' ∧ SameButMemory t t' := by
  unfold Machine.executeWord
  cases decodeWord w with
  | ok i => exact h.exec i
  | error _ => exact ⟨_, _, rfl, rfl, h.raise _⟩

/-- The four lines of the step: memory enters through the fetch only (R81, R83). -/
theorem runningStep (h : SameButMemory s s') (hf : s'.fetch = s.fetch) :
    ∃ t t', runningStep s = .next t ∧ runningStep s' = .next t' ∧ SameButMemory t t' := by
  unfold Machine.runningStep
  rw [hf]
  cases s.fetch with
  | error k => exact ⟨_, _, rfl, rfl, h.raise k⟩
  | ok w =>
    obtain ⟨t, t', ht, ht', hSame⟩ := h.advancePc.executeWord w
    exact ⟨t.haltTest, t'.haltTest, by simp [ht, endStep], by simp [ht', endStep], hSame.haltTest⟩

theorem step (h : SameButMemory s s') (hf : s'.fetch = s.fetch) {t : State} (hs : step s = .next t) :
    ∃ t', step s' = .next t' ∧ SameButMemory t t' := by
  obtain ⟨hr, hc, -⟩ := step_cases hs
  obtain ⟨u, u', hu, hu', hSame⟩ := h.runningStep hf
  have hut : u = t := by simpa [step_running hr hc, hu] using hs
  exact ⟨u', by rw [step_running (h.status.trans hr) (h.cfg ▸ hc), hu'], hut ▸ hSame⟩

end SameButMemory

/-- Settles O54: a step of two states that differ in memory alone, and fetch one word, ends in two such states. -/
theorem stepReadsOnlyTheFetchedWord : Obligations.StepReadsOnlyTheFetchedWord := by
  intro s s' t hcfg hpc hstatus hfetch hregs hstep
  have hSame : SameButMemory s s' := ⟨hcfg, hpc, hstatus, hregs⟩
  obtain ⟨t', ht', hSame'⟩ := hSame.step hfetch hstep
  exact ⟨t', ht', hSame'.pc, hSame'.status, hSame'.regs⟩

/-- Settles O28: `x0` has no storage, so the read is zero whatever state was reached, and however. -/
theorem registerZeroReadsZero : Obligations.RegisterZeroReadsZero :=
  ⟨State.readReg_zero, State.readReg_zero _, fun _ t _ => t.readReg_zero, fun _ _ t _ => t.readReg_zero⟩

end Sys2Proof.Machine
end

section
/-! What the bytes of memory are before and after an access (20_memory.md R34, R36, R37). -/

namespace Sys2Proof.Machine

/-! ### Runs of bytes and their values -/

/-- Division and remainder pick one byte out of a little-endian value. -/
theorem leValue_div_pow_mod : ∀ (bs : List Byte) (k : Nat),
    leValue bs / 256 ^ k % 256 = ((bs[k]?).getD 0#8).toNat
  | [], k => by simp [leValue]
  | b :: bs, 0 => by
    have hb := b.isLt
    simp only [leValue, pow_zero, Nat.div_one, List.getElem?_cons_zero, Option.getD_some]
    omega
  | b :: bs, k + 1 => by
    have hb := b.isLt
    have hTail : (b.toNat + 256 * leValue bs) / 256 = leValue bs := by omega
    rw [leValue, pow_succ', ← Nat.div_div_eq_div_mul, hTail, leValue_div_pow_mod bs k, List.getElem?_cons_succ]

/-- The value of a run in memory is the sum of its bytes, each at its weight (R36). -/
theorem leValue_readBytes (m : Memory) : ∀ n a : Nat,
    leValue (m.readBytes a n) = ∑ i ∈ Finset.range n, (m.readByte (a + i)).toNat * 2 ^ (8 * i)
  | 0, _ => rfl
  | n + 1, a => by
    rw [Memory.readBytes, leValue, leValue_readBytes m n (a + 1), Finset.sum_range_succ', Finset.mul_sum, add_comm]
    congr 1
    · refine Finset.sum_congr rfl fun i _ => ?_
      rw [add_assoc, add_comm 1 i, mul_add, pow_add]
      ring
    · simp

/-- A run read where it was just written is the run. -/
theorem Memory.readBytes_writeBytes {m : Memory} (h : m.wf = true) (a : Nat) (bs : List Byte) :
    (m.writeBytes a bs).readBytes a bs.length = bs := by
  refine List.ext_getElem? fun k => ?_
  by_cases hk : k < bs.length
  · rw [Memory.getElem?_readBytes _ _ _ _ hk, Memory.readByte_writeBytes _ _ _ h]
    simp [hk]
  · rw [List.getElem?_eq_none (by rw [Memory.length_readBytes]; omega), List.getElem?_eq_none (by omega)]

/-! ### Bytes of the memory and the bus primitives -/

/-- A byte read looks at the configuration and at one byte of the memory. -/
theorem State.byteAt_congr_of_readByte {s t : State} {a : Word} (hc : t.cfg = s.cfg)
    (hm : t.mem.readByte a.toNat = s.mem.readByte a.toNat) : t.byteAt a = s.byteAt a := by
  simp [State.byteAt, State.memRead, widthBytes, Memory.readBytes, hc, hm]

/-- Each byte of an access in range is a valid address, and the address sum does not wrap (R38). -/
theorem State.byteAt_add_of_inRange {s : State} {addr : Word} {n k : Nat} (hc : s.cfg.wellFormed = true)
    (hr : InRange s.cfg addr n) (hk : k < n) :
    s.byteAt (addr + BitVec.ofNat 32 k) = .ok (s.mem.readByte (addr.toNat + k)).toNat := by
  obtain ⟨-, -, hTop⟩ := (wellFormed_iff s.cfg).1 hc
  obtain ⟨hLow, hHigh⟩ := hr
  have hSum := toNat_add_ofNat (a := addr) (k := k) (by omega)
  rw [State.byteAt_of_valid (by omega) (by omega), hSum]

/-- Byte `k` of the value a read answers (R34, R36). -/
theorem State.byteAt_add_of_memRead {s : State} {addr : Word} {w : AccessWidth} {v k : Nat}
    (hc : s.cfg.wellFormed = true) (h : s.memRead addr w = .ok v) (hk : k < widthBytes w) :
    s.byteAt (addr + BitVec.ofNat 32 k) = .ok (v / 256 ^ k % 256) := by
  have hr := State.inRange_of_memRead h
  have hv : leValue (s.mem.readBytes addr.toNat (widthBytes w)) = v := by
    simpa [State.memRead_of_inRange hr] using h
  rw [State.byteAt_add_of_inRange hc hr hk, ← hv, leValue_div_pow_mod, Memory.getElem?_readBytes _ _ _ _ hk,
    Option.getD_some]

/-- The fetched word is the value of the four bytes read at `pc`, none of its bits lost (R83). -/
theorem State.memRead_of_fetch {s : State} {w : Word} (h : s.fetch = .ok w) :
    s.memRead s.pc .word = .ok w.toNat := by
  have hr := State.inRange_of_fetch h
  have hw : BitVec.ofNat 32 (leValue (s.mem.readBytes s.pc.toNat 4)) = w := by
    simpa [State.fetch_of_inRange hr] using h
  have hlt : leValue (s.mem.readBytes s.pc.toNat 4) < 2 ^ 32 := by
    simpa [Memory.length_readBytes] using leValue_lt (s.mem.readBytes s.pc.toNat 4)
  rw [State.memRead_of_inRange hr, ← hw, BitVec.toNat_ofNat, Nat.mod_eq_of_lt hlt]
  rfl

/-- A write that answers a state was in range, kept the configuration and stored the value's bytes (R37). -/
theorem State.cfg_mem_of_memWrite {s t : State} {addr : Word} {w : AccessWidth} {v : Int}
    (h : s.memWrite addr w v = .ok t) : InRange s.cfg addr (widthBytes w) ∧
      t.cfg = s.cfg ∧ t.mem = s.mem.writeBytes addr.toNat (leBytes (widthBytes w) v) := by
  obtain ⟨hr, he⟩ | ⟨-, he⟩ := State.memWrite_cases s addr w v
  · rw [he] at h
    cases h
    exact ⟨hr, rfl, rfl⟩
  · simp [he] at h

/-- Byte `k` of the value a write stored (R34, R37). -/
theorem State.byteAt_add_of_memWrite {s t : State} {addr : Word} {w : AccessWidth} {v : Int} {k : Nat}
    (hc : s.cfg.wellFormed = true) (hm : s.mem.wf = true) (h : s.memWrite addr w v = .ok t)
    (hk : k < widthBytes w) : t.byteAt (addr + BitVec.ofNat 32 k) = .ok (v / 256 ^ k % 256).toNat := by
  obtain ⟨hr, hcfg, hmem⟩ := State.cfg_mem_of_memWrite h
  rw [State.byteAt_add_of_inRange (hcfg ▸ hc) (hcfg ▸ hr) hk, hmem, Memory.readByte_writeBytes_leBytes hm, if_pos (by omega),
    Nat.add_sub_cancel_left, BitVec.toNat_ofInt]
  rfl

/-- A write leaves every byte outside its range alone (R37). -/
theorem State.byteAt_of_memWrite_outside {s t : State} {addr a : Word} {w : AccessWidth} {v : Int}
    (hm : s.mem.wf = true) (h : s.memWrite addr w v = .ok t)
    (ha : ¬ (addr.toNat ≤ a.toNat ∧ a.toNat < addr.toNat + widthBytes w)) : t.byteAt a = s.byteAt a := by
  obtain ⟨-, hcfg, hmem⟩ := State.cfg_mem_of_memWrite h
  refine State.byteAt_congr_of_readByte hcfg ?_
  rw [hmem, Memory.readByte_writeBytes_leBytes hm, if_neg ha]

/-- The same read after a write answers the integer's low bits (R37, R40). -/
theorem State.memRead_of_memWrite {s t : State} {addr : Word} {w : AccessWidth} {v : Int}
    (hm : s.mem.wf = true) (h : s.memWrite addr w v = .ok t) :
    t.memRead addr w = .ok (v % 2 ^ (8 * widthBytes w)).toNat := by
  obtain ⟨hr, hcfg, hmem⟩ := State.cfg_mem_of_memWrite h
  have hRun := Memory.readBytes_writeBytes hm addr.toNat (leBytes (widthBytes w) v)
  rw [length_leBytes] at hRun
  rw [State.memRead_of_inRange (hcfg ▸ hr), hmem, hRun, pow_mul, show (2 : Int) ^ 8 = 256 from rfl, ← leValue_leBytes,
    Int.toNat_natCast]

/-- No instruction writes the configuration or the memory (R37). -/
theorem exec_keeps_cfg_mem {i : Instr} {s t : State} (h : exec i s = .next t) : t.cfg = s.cfg ∧ t.mem = s.mem := by
  obtain ⟨-, rd, v, -, he⟩ | ⟨-, -, he⟩ := exec_cases i s <;>
  · rw [he] at h
    cases h
    simp

/-! ### The statements -/

/-- Settles O42: each byte of a read in range is valid, and the value is their sum. -/
theorem memReadIsTheByteSum : Obligations.MemReadIsTheByteSum := by
  intro s addr n hc
  refine ⟨fun hr => ⟨fun i => (s.mem.readByte (addr.toNat + i)).toNat,
    fun i hi => State.byteAt_add_of_inRange hc hr hi, ?_, ?_⟩, State.memRead_of_not_inRange⟩
  · rw [State.memRead_of_inRange hr, leValue_readBytes]
  · have hlt := leValue_lt (s.mem.readBytes addr.toNat (widthBytes n))
    rwa [Memory.length_readBytes, leValue_readBytes, show 256 = 2 ^ 8 from rfl, ← pow_mul] at hlt

/-- Settles O32: a fetch is the word read at `pc`, and each primitive has its law of one byte. -/
theorem byteOrderIsLittleEndian : Obligations.ByteOrderIsLittleEndian := by
  refine ⟨fun s w hc hf k hk => ?_, fun s addr n v hc hv k hk => State.byteAt_add_of_memRead hc hv hk,
    fun s t addr n v hc hm hw k hk => ?_⟩
  · rw [State.byteAt_add_of_memRead hc (State.memRead_of_fetch hf) hk, BitVec.extractLsb'_toNat,
      Nat.shiftRight_eq_div_pow, pow_mul]
    rfl
  · rw [State.byteAt_add_of_memWrite hc hm hw hk]
    norm_cast

/-- Settles O43: a write's own bytes, the read back and the bytes around it are three laws of the primitive. -/
theorem memWriteStoresItsBytes : Obligations.MemWriteStoresItsBytes := by
  refine ⟨fun i s t a h => ?_, fun s addr n v hc hm => ?_⟩
  · obtain ⟨hcfg, hmem⟩ := exec_keeps_cfg_mem h
    exact State.byteAt_congr hcfg hmem a
  obtain ⟨hr, hw⟩ | ⟨hr, hw⟩ := State.memWrite_cases s addr n v
  · refine ⟨fun _ => ⟨_, hw, fun i hi => ?_, State.memRead_of_memWrite hm hw,
      fun a ha => State.byteAt_of_memWrite_outside hm hw ha, fun r => State.readReg_congr rfl r, rfl, rfl, rfl⟩,
      fun hn => absurd hr hn⟩
    rw [State.byteAt_add_of_memWrite hc hm hw hi, Int.shiftRight_eq_div_pow, pow_mul]
    norm_cast
  · exact ⟨fun hin => absurd hin hr, fun _ => hw⟩

end Sys2Proof.Machine
end

section
/-! The fields and the immediates of an instruction word, bit by bit (30_encoding.md R51 to R60). -/

namespace Sys2Proof

/-! ### Sign extension to a word -/

/-- Sign extension repeats the field's last bit. -/
theorem getLsbD_signExtend_eq_min {n k : Nat} (x : BitVec n) (hPos : 0 < n) (hn : n ≤ 32) (hk : k < 32) :
    (x.signExtend 32).getLsbD k = x.getLsbD (min k (n - 1)) := by
  rw [BitVec.getLsbD_signExtend, decide_eq_true hk, Bool.true_and]
  split
  · rw [min_eq_left (by omega)]
  · rw [min_eq_right (by omega), BitVec.msb_eq_getLsbD_last]

/-- The low bits of a sign extension are the field, so extending them again changes nothing. -/
theorem signExtend_setWidth_signExtend {n : Nat} (x : BitVec n) (hn : n ≤ 32) :
    ((x.signExtend 32).setWidth n).signExtend 32 = x.signExtend 32 := by
  congr 1
  refine BitVec.eq_of_getLsbD_eq fun k hk => ?_
  simp only [BitVec.getLsbD_setWidth, BitVec.getLsbD_signExtend, hk, hk.trans_le hn, decide_true, Bool.true_and, if_true]

/-- A sign extension has the signed range of its field. -/
theorem toInt_signExtend_range {n : Nat} (x : BitVec n) (hn : n ≤ 32) :
    -2 ^ (n - 1) ≤ (x.signExtend 32).toInt ∧ (x.signExtend 32).toInt < 2 ^ (n - 1) := by
  rw [BitVec.toInt_signExtend_of_le hn]
  exact ⟨x.le_toInt, x.toInt_lt⟩

/-- A word whose lowest bit is zero is even. -/
theorem toInt_emod_two_of_getLsbD_zero {w : Word} (h : w.getLsbD 0 = false) : w.toInt % 2 = 0 := by
  have hEven : w.toNat % 2 = 0 := by simpa [BitVec.getLsbD, Nat.testBit_zero] using h
  rw [BitVec.toInt_eq_toNat_cond]
  split <;> omega

/-! ### The word bit that each bit of an immediate is -/

/-- The I-type layout (R54). -/
theorem getLsbD_immI (w : Word) {k : Nat} (hk : k < 32) :
    (immI w).getLsbD k = w.getLsbD (if k < 12 then 20 + k else 31) := by
  rw [immI, getLsbD_signExtend_eq_min _ (by decide) (by decide) hk]
  simp only [BitVec.getLsbD_extractLsb']
  grind

/-- The S-type layout (R55). -/
theorem getLsbD_immS (w : Word) {k : Nat} (hk : k < 32) :
    (immS w).getLsbD k = w.getLsbD (if k < 5 then 7 + k else if k < 12 then 20 + k else 31) := by
  rw [immS, getLsbD_signExtend_eq_min _ (by decide) (by decide) hk]
  simp only [BitVec.getLsbD_append, BitVec.getLsbD_extractLsb']
  grind

/-- The B-type layout (R56). -/
theorem getLsbD_immB (w : Word) {k : Nat} (hk : k < 32) :
    (immB w).getLsbD k = (decide (1 ≤ k) &&
      w.getLsbD (if k < 5 then 7 + k else if k < 11 then 20 + k else if k < 12 then 7 else 31)) := by
  rw [immB, getLsbD_signExtend_eq_min _ (by decide) (by decide) hk]
  simp only [BitVec.getLsbD_append, BitVec.getLsbD_extractLsb']
  grind

/-- The U-type layout (R57): nothing is moved. -/
theorem getLsbD_immU (w : Word) {k : Nat} (hk : k < 32) :
    (immU w).getLsbD k = (decide (12 ≤ k) && w.getLsbD k) := by
  simp only [immU, BitVec.getLsbD_append, BitVec.getLsbD_extractLsb']
  grind

/-- The J-type layout (R58). -/
theorem getLsbD_immJ (w : Word) {k : Nat} (hk : k < 32) :
    (immJ w).getLsbD k = (decide (1 ≤ k) &&
      w.getLsbD (if k < 11 then 20 + k else if k < 12 then 20 else if k < 20 then k else 31)) := by
  rw [immJ, getLsbD_signExtend_eq_min _ (by decide) (by decide) hk]
  simp only [BitVec.getLsbD_append, BitVec.getLsbD_extractLsb']
  grind

/-! ### The fields and immediates as operations on the word -/

/-- A field is a shift and a mask (R51). -/
theorem setWidth_extractLsb' (w : Word) (start : Nat) {len : Nat} (h : len < 32) :
    (w.extractLsb' start len).setWidth 32 = (w >>> start) &&& BitVec.ofNat 32 (2 ^ len - 1) := by
  have hLen : 2 ^ len < 2 ^ 32 := Nat.pow_lt_pow_right (by decide) h
  have hField := (Nat.mod_lt (w.toNat >>> start) (Nat.two_pow_pos len)).trans hLen
  have hMask : (2 ^ len - 1) % 2 ^ 32 = 2 ^ len - 1 := Nat.mod_eq_of_lt (by omega)
  apply BitVec.eq_of_toNat_eq
  rw [BitVec.toNat_setWidth, BitVec.extractLsb'_toNat, Nat.mod_eq_of_lt hField, BitVec.toNat_and,
    BitVec.toNat_ushiftRight, BitVec.toNat_ofNat, hMask, Nat.and_two_pow_sub_one_eq_mod]

/-- Twenty copies of `inst[31]` above `inst[31:20]`: an arithmetic shift (R54). -/
theorem immI_eq_sshiftRight (w : Word) : immI w = w.sshiftRight 20 := by
  refine BitVec.eq_of_getLsbD_eq fun k hk => ?_
  rw [getLsbD_immI w hk, BitVec.getLsbD_sshiftRight, BitVec.msb_eq_getLsbD_last]
  grind

/-- The mask `0xFFFFF000` has the bits from 12 on (R57). -/
theorem immU_eq_and_mask (w : Word) : immU w = w &&& 0xFFFFF000#32 := by
  have hMask : ∀ k < 32, (0xFFFFF000#32).getLsbD k = decide (12 ≤ k) := by decide
  refine BitVec.eq_of_getLsbD_eq fun k hk => ?_
  rw [getLsbD_immU w hk, BitVec.getLsbD_and, hMask k hk, Bool.and_comm]

/-- The shift amount is the immediate cut to five bits (R59). -/
theorem shamtOf_eq_setWidth (w : Word) : shamtOf w = (immI w).setWidth 5 :=
  (BitVec.setWidth_eq_extractLsb' (by decide)).symm

/-! ### The operands of a decoded instruction -/

/-- The operands of the instruction are the fields and the immediate of the word, each at its own place; a right shift
has its `funct7` (R51, R54, R59, R64). -/
def Instr.OperandsOf (w : Word) : Instr → Prop
  | .addi rd rs1 imm | .slti rd rs1 imm | .sltiu rd rs1 imm | .xori rd rs1 imm | .ori rd rs1 imm | .andi rd rs1 imm =>
    rd = rdOf w ∧ rs1 = rs1Of w ∧ imm = immI w
  | .slli rd rs1 shamt ignored => rd = rdOf w ∧ rs1 = rs1Of w ∧ shamt = shamtOf w ∧ ignored = funct7Of w
  | .srli rd rs1 shamt => rd = rdOf w ∧ rs1 = rs1Of w ∧ shamt = shamtOf w ∧ funct7Of w = 0b0000000#7
  | .srai rd rs1 shamt => rd = rdOf w ∧ rs1 = rs1Of w ∧ shamt = shamtOf w ∧ funct7Of w = 0b0100000#7
  | .load rest | .store rest => rest = w.extractLsb' 7 25

theorem operandsOf_of_decodeRightShift {w : Word} {i : Instr} (h : decodeRightShift w = .ok i) : i.OperandsOf w := by
  obtain ⟨hf, hd⟩ | ⟨hf, hd⟩ | ⟨-, -, hd⟩ := decodeRightShift_cases w <;> rw [hd] at h <;> cases h
  · exact ⟨rfl, rfl, rfl, hf⟩
  · exact ⟨rfl, rfl, rfl, hf⟩

theorem operandsOf_of_decodeOpImm {w : Word} {i : Instr} (h : decodeOpImm w = .ok i) : i.OperandsOf w := by
  obtain ⟨-, hd⟩ | ⟨-, hd⟩ | ⟨-, hd⟩ | ⟨-, hd⟩ | ⟨-, hd⟩ | ⟨-, hd⟩ | ⟨-, hd⟩ | ⟨-, hd⟩ := decodeOpImm_cases w <;>
    rw [hd] at h
  on_goal 8 => exact operandsOf_of_decodeRightShift h
  all_goals
    cases h
    simp [Instr.OperandsOf]

/-- Whatever the decoder answers, its operands are the word's. -/
theorem operandsOf_of_decodeWord {w : Word} {i : Instr} (h : decodeWord w = .ok i) : i.OperandsOf w := by
  obtain ⟨hop, -⟩ | ⟨hop, -⟩ | ⟨hop, -⟩ | ⟨hop₁, hop₂, hop₃, -⟩ := opcodeClass_cases (opcodeOf w)
  · exact operandsOf_of_decodeOpImm (decodeWord_opImm hop ▸ h)
  · rw [decodeWord_load hop] at h
    cases h
    rfl
  · rw [decodeWord_store hop] at h
    cases h
    rfl
  · simp [decodeWord_other hop₁ hop₂ hop₃] at h

/-! ### The statements -/

/-- Settles O3: the bits are the rows of `getLsbD_immI`, the value is an arithmetic shift, and the operands of whatever the
decoder answers are the word's. -/
theorem immediateIBits : Obligations.ImmediateIBits := by
  refine ⟨fun w => ⟨fun k hk => ?_, fun k hk hk' => ?_, ?_, ?_⟩, by decide, fun w rd rs1 imm h => ?_,
    fun w rd rs1 k h => ?_⟩
  · rw [getLsbD_immI w (by omega), if_pos hk]
  · rw [getLsbD_immI w hk', if_neg (by omega)]
  · rw [immI_eq_sshiftRight, BitVec.toInt_sshiftRight, Int.shiftRight_eq_div_pow]
    rfl
  · simpa [immFits] using immFits_immI w
  · obtain h | h | h | h | h | h := h <;>
    · obtain ⟨-, -, himm⟩ := operandsOf_of_decodeWord h
      exact himm
  · rw [← shamtOf_eq_setWidth]
    obtain h | h := h <;>
    · obtain ⟨-, -, hk, -⟩ := operandsOf_of_decodeWord h
      exact hk

/-- Settles O4: the clauses about bits are the rows of `getLsbD_immS`; the range is that of a field of 12 bits. -/
theorem immediateSBits : Obligations.ImmediateSBits := by
  intro w
  have hRange : -2 ^ 11 ≤ (immS w).toInt ∧ (immS w).toInt < 2 ^ 11 := toInt_signExtend_range (n := 12) _ (by decide)
  refine ⟨?_, ?_, ?_, by omega, by omega⟩
  all_goals grind [getLsbD_immS]

/-- Settles O5: the clauses about bits are the rows of `getLsbD_immB`; the range is that of a field of 13 bits, its top
value excluded as odd. -/
theorem immediateBBits : Obligations.ImmediateBBits := by
  intro w
  have hZero : (immB w).getLsbD 0 = false := getLsbD_immB w (by decide)
  have hEven := toInt_emod_two_of_getLsbD_zero hZero
  have hRange : -2 ^ 12 ≤ (immB w).toInt ∧ (immB w).toInt < 2 ^ 12 := toInt_signExtend_range (n := 13) _ (by decide)
  refine ⟨hZero, ?_, ?_, ?_, ?_, hEven, by omega, by omega⟩
  all_goals grind [getLsbD_immB]

/-- Settles O6: the two clauses about bits are the rows of `getLsbD_immU`. -/
theorem immediateUBits : Obligations.ImmediateUBits := by
  refine fun w => ⟨immU_eq_and_mask w, fun k hk => ?_, fun k hk hk' => ?_⟩
  · simp [getLsbD_immU w (show k < 32 by omega), hk]
  · simp [getLsbD_immU w hk', hk]

/-- Settles O7: the argument of O5, with the layout `getLsbD_immJ` and a field of 21 bits. -/
theorem immediateJBits : Obligations.ImmediateJBits := by
  intro w
  have hZero : (immJ w).getLsbD 0 = false := getLsbD_immJ w (by decide)
  have hEven := toInt_emod_two_of_getLsbD_zero hZero
  have hRange : -2 ^ 20 ≤ (immJ w).toInt ∧ (immJ w).toInt < 2 ^ 20 := toInt_signExtend_range (n := 21) _ (by decide)
  refine ⟨hZero, ?_, ?_, ?_, ?_, hEven, by omega, by omega⟩
  all_goals grind [getLsbD_immJ]

/-- Settles O9: the immediates of four formats are sign extensions by definition, and the last row of every layout is
`inst[31]`. -/
theorem immediatesSignExtend : Obligations.ImmediatesSignExtend := by
  intro w
  refine ⟨(signExtend_setWidth_signExtend (n := 12) _ (by decide)).symm,
    (signExtend_setWidth_signExtend (n := 12) _ (by decide)).symm,
    (signExtend_setWidth_signExtend (n := 13) _ (by decide)).symm,
    (signExtend_setWidth_signExtend (n := 21) _ (by decide)).symm, ?_⟩
  simp only [BitVec.msb_eq_getLsbD_last]
  exact ⟨getLsbD_immI w (by decide), getLsbD_immS w (by decide), getLsbD_immB w (by decide),
    getLsbD_immU w (by decide), getLsbD_immJ w (by decide)⟩

/-- Settles O2: every field is cut from the word, the shift amount from the bits of `rs2`. -/
theorem fieldsAreShiftsAndMasks : Obligations.FieldsAreShiftsAndMasks := by
  intro w
  refine ⟨?_, setWidth_extractLsb' w 7 (by decide), setWidth_extractLsb' w 12 (by decide),
    setWidth_extractLsb' w 15 (by decide), setWidth_extractLsb' w 20 (by decide),
    setWidth_extractLsb' w 25 (by decide), ?_, (shamtOf_eq_rs2Of w).symm⟩
  · simpa [opcodeOf] using setWidth_extractLsb' w 0 (len := 7) (by decide)
  · rw [shamtOf_eq_rs2Of]
    exact setWidth_extractLsb' w 20 (by decide)

end Sys2Proof
end

section
/-! The step cycle, read off `step_cases`: the fetch, the program counter and the result
(40_step_and_dispatch.md R82, R83, R86, R91). -/

namespace Sys2Proof.Machine

/-! ### What a step leaves in the program counter and the status -/

/-- Where a step leaves the program counter and the status: a fetch out of range faults and leaves `pc`; every other step
advances it, and whatever it ends in is not `AddressFault` (R82, R83, R91). -/
theorem step_pc_status {s t : State} (h : step s = .next t) :
    (¬ InRange s.cfg s.pc 4 ∧ t.pc = s.pc ∧ t.status = .faulted .addressFault) ∨
    (InRange s.cfg s.pc 4 ∧ t.pc = s.pc + 4#32 ∧
      (t.status = .running ∨ t.status = .halted ∨ t.status = .faulted .invalidInstruction)) := by
  obtain ⟨hr, -, ⟨hin, rfl⟩ | ⟨w, hf, ⟨i, rd, v, -, -, -, rfl⟩ | ⟨-, rfl⟩⟩⟩ := step_cases h
  · exact .inl ⟨hin, rfl, rfl⟩
  · refine .inr ⟨State.inRange_of_fetch hf, by simp, ?_⟩
    rw [State.haltTest_status, State.writeReg_status, State.advancePc_status, hr]
    split <;> simp
  · exact .inr ⟨State.inRange_of_fetch hf, rfl, .inr (.inr rfl)⟩

/-- A fetch out of range ends the step at its first line (R83). -/
theorem step_of_not_inRange {s : State} (hr : s.status = .running) (hc : s.cfg.wellFormed = true)
    (hin : ¬ InRange s.cfg s.pc 4) : step s = .next (s.raise .addressFault) := by
  rw [step_running hr hc, runningStep, State.fetch_of_not_inRange hin]

/-- A running unit of a legal configuration has a step (R80). -/
theorem exists_step_of_running {s : State} (hr : s.status = .running) (hc : s.cfg.wellFormed = true) :
    ∃ t, step s = .next t := by
  rw [step_running hr hc, runningStep]
  cases s.fetch with
  | error k => exact ⟨_, rfl⟩
  | ok w =>
    obtain ⟨i, rd, v, -, -, -, he⟩ | ⟨-, he⟩ := executeWord_cases w s.advancePc <;>
      exact ⟨_, congrArg endStep he⟩

/-- No instruction writes the program counter (R82). -/
theorem exec_keeps_pc {i : Instr} {s t : State} (h : exec i s = .next t) : t.pc = s.pc := by
  obtain ⟨-, rd, v, -, he⟩ | ⟨-, -, he⟩ := exec_cases i s <;>
  · rw [he] at h
    cases h
    simp

/-! ### The alignment of the fetch -/

/-- The reset program counter is `MEM_BASE`, a multiple of 4 (R16, R25). -/
theorem launch_pc_aligned {c : Config} {image : List Byte} {s : State} (h : launch c image = .ok s) :
    s.pc.toNat % 4 = 0 := by
  obtain ⟨hc, -, rfl⟩ := launch_cases h
  obtain ⟨hBase, -, -⟩ := (wellFormed_iff c).1 hc
  rw [State.resetWith_pc, resetPc, BitVec.toNat_ofNat]
  omega

/-- The modulus 2^32 is a multiple of 4, so even the step that wraps keeps the alignment. -/
theorem step_keeps_pc_aligned {s t : State} (ha : s.pc.toNat % 4 = 0) (h : step s = .next t) :
    t.pc.toNat % 4 = 0 := by
  obtain ⟨-, hpc, -⟩ | ⟨-, hpc, -⟩ := step_pc_status h <;> rw [hpc]
  · exact ha
  · rw [BitVec.toNat_add, BitVec.toNat_ofNat]
    omega

/-! ### The statements -/

/-- Settles O24: each of the nine is the one handler shape, whose frame is `opImm_spec`. -/
theorem handlersHaveOneShape : Obligations.HandlersHaveOneShape := by
  intro i hi
  obtain ⟨rd, rs1, f, hd, hs, hf⟩ := exec_eq_opImm hi
  exact ⟨rd, rs1, f, hd, hs, fun s => hf s ▸ opImm_spec f rd rs1 s⟩

/-- Settles O33: a fetch in range is the sum of its bytes, and out of range is the one way to `AddressFault`. -/
theorem fetchReadsTheWordOrFaults : Obligations.FetchReadsTheWordOrFaults := by
  refine ⟨fun s hc hin => ?_, fun s hr hc hin => ?_, fun s t h hFault => ?_, fun _ _ _ => launch_pc_aligned,
    fun _ _ => step_keeps_pc_aligned⟩
  · have hByte {k : Nat} (hk : k < 4) := State.byteAt_add_of_inRange hc hin hk
    refine ⟨_, _, _, _, by simpa using hByte (k := 0) (by decide), hByte (k := 1) (by decide),
      hByte (k := 2) (by decide), hByte (k := 3) (by decide), ?_⟩
    rw [State.fetch_of_inRange hin, leValue_readBytes]
    simp [Finset.sum_range_succ, mul_comm]
  · exact ⟨_, step_of_not_inRange hr hc hin, rfl, State.sameButStatus_raise s _⟩
  · obtain ⟨hin, -⟩ | ⟨-, -, hs⟩ := step_pc_status h
    · exact hin
    · simp [hFault] at hs

/-- Settles O39: a running unit has a step, and each status it can end in is one result. -/
theorem everyStepReportsItsResult : Obligations.EveryStepReportsItsResult := by
  intro s hr hc
  obtain ⟨t, ht⟩ := exists_step_of_running hr hc
  refine ⟨t, ht, ?_⟩
  obtain ⟨-, -, hs⟩ | ⟨-, -, hs | hs | hs⟩ := step_pc_status ht <;> simp [State.result, hs]

/-- Settles O40: whether the fetch answers or faults says which case of `step_pc_status` the step is. -/
theorem pcAdvancesByFourOnly : Obligations.PcAdvancesByFourOnly := by
  refine ⟨fun s t w h hf => ?_, fun s t k h hf => ?_, fun _ _ _ => exec_keeps_pc⟩
  · obtain ⟨hin, -⟩ | ⟨-, hpc, -⟩ := step_pc_status h
    · exact absurd (State.inRange_of_fetch hf) hin
    · rw [hpc, BitVec.toNat_add]
      rfl
  · obtain ⟨-, hpc, -⟩ | ⟨hin, -⟩ := step_pc_status h
    · exact hpc
    · simp [State.fetch_of_inRange hin] at hf

end Sys2Proof.Machine
end

section
/-! The register-immediate arithmetic instructions (41_op_imm_arith.md). -/

namespace Sys2Proof.Machine

/-- The pattern of ADDI in R72 selects ADDI, whatever the other bits of the word (R101). -/
theorem decodeWord_of_addiPattern {w : Word} (h : w &&& 0x0000707F#32 = 0x00000013#32) :
    decodeWord w = .ok (.addi (rdOf w) (rs1Of w) (immI w)) := by
  have hSelector : selectorWord 0#7 (funct3Of w) (opcodeOf w) = selectorWord 0#7 0b000#3 0b0010011#7 :=
    (and_opImmMask w).symm.trans h
  obtain ⟨hop, hf, -⟩ := selectorWord_inj.1 hSelector
  rw [decodeWord_opImm hop, decodeOpImm, hf]
  rfl

/-- Settles O15: the handler shape `opImm_spec` at the sum of two words, whose unsigned reading is the sum modulo 2^32. -/
theorem addiMeaning : Obligations.AddiMeaning := by
  refine ⟨fun w => decodeWord_of_addiPattern, fun rd rs1 imm s => ?_⟩
  obtain ⟨t, ht, hrd, hSame⟩ := opImm_spec (fun a => a + imm) rd rs1 s
  refine ⟨t, ht, ?_, hSame⟩
  rw [hrd, apply_ite BitVec.toNat, BitVec.toNat_add, BitVec.toNat_zero]

end Sys2Proof.Machine
end

section
/-! The raise of an exception (60_exceptions.md R133). -/

namespace Sys2Proof.Machine

/-- The whole state a raising step answers: line 1 raises in the state the step started from, line 3 in that state with
the program counter advanced; a handled word's step ends in no fault (R81, R133, R136). -/
theorem step_eq_of_faulted {s t : State} {k : FaultKind} (h : step s = .next t) (hk : t.status = .faulted k) :
    (k = .addressFault ∧ t = s.raise .addressFault) ∨
    (k = .invalidInstruction ∧ t = s.advancePc.raise .invalidInstruction) := by
  obtain ⟨hr, -, ⟨-, rfl⟩ | ⟨w, -, ⟨i, rd, v, -, -, -, rfl⟩ | ⟨-, rfl⟩⟩⟩ := step_cases h
  · cases hk
    exact .inl ⟨rfl, rfl⟩
  · rw [State.haltTest_status, State.writeReg_status, State.advancePc_status, hr] at hk
    split at hk <;> cases hk
  · cases hk
    exact .inr ⟨rfl, rfl⟩

/-- Settles O35: the state of a raising step is `step_eq_of_faulted`'s, and only a `Running` unit steps. -/
theorem raiseStopsTheStep : Obligations.RaiseStopsTheStep := by
  refine ⟨fun s t h hk => ?_, fun s t h hk => ?_, fun t k hk => ⟨fun u => step_not_running (by simp [hk]), rfl⟩⟩
  · obtain ⟨-, ht⟩ | ⟨hKind, -⟩ := step_eq_of_faulted h hk
    · exact ht
    · cases hKind
  · obtain ⟨hKind, -⟩ | ⟨-, ht⟩ := step_eq_of_faulted h hk
    · cases hKind
    · exact ht

end Sys2Proof.Machine
end

section
/-! Where the memory comes from and that it stays (70_reset_and_hazards.md R151). -/

namespace Sys2Proof.Machine

/-- A launch makes every valid byte the image's at its offset, zero beyond the image (R45). -/
theorem byteAt_of_launch {c : Config} {image : List Byte} {s : State} {a : Word} (h : launch c image = .ok s)
    (hLow : c.memBase ≤ a.toNat) (hHigh : a.toNat < c.memBase + c.memSize) :
    s.byteAt a = .ok ((image[a.toNat - c.memBase]?).getD 0#8).toNat := by
  obtain ⟨-, -, rfl⟩ := launch_cases h
  rw [State.byteAt_of_valid hLow hHigh, State.resetWith_mem, Memory.readByte_writeBytes _ _ _ rfl, if_pos hLow]
  rfl

/-- Reset of a used unit keeps its configuration and its memory, so every byte reads as before. -/
theorem State.byteAt_applyReset (s : State) (a : Word) : s.applyReset.byteAt a = s.byteAt a :=
  State.byteAt_congr rfl rfl a

/-- Settles O41: a launch writes the image over zeros, and neither reset nor a run writes the memory. -/
theorem memoryIsConstantDuringARun : Obligations.MemoryIsConstantDuringARun := by
  refine ⟨fun c image s h a hLow hHigh => byteAt_of_launch h hLow hHigh, State.byteAt_applyReset, fun n s t h => ?_⟩
  obtain ⟨hcfg, hmem⟩ := runSteps_keeps_cfg_mem n h
  exact ⟨hcfg, State.byteAt_congr hcfg hmem⟩

end Sys2Proof.Machine
end

section
/-! The decoder and the encoder are inverse to each other, and the opcode table (30_encoding.md R52, R61 to R64, R72). -/

namespace Sys2Proof

/-! ### A word put together from its fields -/

/-- An I-format word made of a word's fields is that word exactly where the selectors are the word's (R52). -/
theorem encodeI_fields_eq_iff (w : Word) (f : BitVec 3) :
    encodeI f (rdOf w) (rs1Of w) (immI w) = w ↔ opcodeOf w = 0b0010011#7 ∧ funct3Of w = f := by
  constructor
  · intro h
    rw [← h]
    simp
  · rintro ⟨hop, rfl⟩
    rw [encodeI, ← hop]
    refine BitVec.eq_of_getLsbD_eq fun k hk => ?_
    simp only [rdOf, rs1Of, funct3Of, opcodeOf, BitVec.getLsbD_append, BitVec.getLsbD_extractLsb']
    grind [getLsbD_immI]

/-- The same for a word of the shift variant. -/
theorem encodeShift_fields_eq_iff (w : Word) (g : BitVec 7) (f : BitVec 3) :
    encodeShift g f (rdOf w) (rs1Of w) (shamtOf w) = w ↔
      opcodeOf w = 0b0010011#7 ∧ funct3Of w = f ∧ funct7Of w = g := by
  constructor
  · intro h
    rw [← h]
    simp
  · rintro ⟨hop, rfl, rfl⟩
    rw [encodeShift, ← hop, shamtOf_eq_rs2Of]
    refine BitVec.eq_of_getLsbD_eq fun k hk => ?_
    simp only [rdOf, rs1Of, rs2Of, funct3Of, funct7Of, opcodeOf, BitVec.getLsbD_append,
      BitVec.getLsbD_extractLsb']
    grind

/-- A word is its upper 25 bits above its opcode. -/
theorem append_of_opcodeOf {w : Word} {op : BitVec 7} (hop : opcodeOf w = op) : w.extractLsb' 7 25 ++ op = w := by
  rw [← hop]
  refine BitVec.eq_of_getLsbD_eq fun k hk => ?_
  simp only [opcodeOf, BitVec.getLsbD_append, BitVec.getLsbD_extractLsb']
  grind

/-- Some 25 bits above an opcode make the word exactly where the opcode is the word's. -/
theorem exists_append_eq_iff (w : Word) (op : BitVec 7) : (∃ rest : BitVec 25, rest ++ op = w) ↔ opcodeOf w = op := by
  constructor
  · rintro ⟨rest, rfl⟩
    exact opcodeOf_append rest op
  · exact fun hop => ⟨_, append_of_opcodeOf hop⟩

/-! ### Encode of decode -/

theorem encode_of_decodeRightShift {w : Word} {i : Instr} (hop : opcodeOf w = 0b0010011#7) (hf : funct3Of w = 0b101#3)
    (h : decodeRightShift w = .ok i) : i.wellFormed = true ∧ encode i = w := by
  obtain ⟨hg, hd⟩ | ⟨hg, hd⟩ | ⟨-, -, hd⟩ := decodeRightShift_cases w <;> rw [hd] at h <;> cases h <;>
    exact ⟨rfl, (encodeShift_fields_eq_iff w _ _).2 ⟨hop, hf, hg⟩⟩

theorem encode_of_decodeOpImm {w : Word} {i : Instr} (hop : opcodeOf w = 0b0010011#7) (h : decodeOpImm w = .ok i) :
    i.wellFormed = true ∧ encode i = w := by
  obtain ⟨hf, hd⟩ | ⟨hf, hd⟩ | ⟨hf, hd⟩ | ⟨hf, hd⟩ | ⟨hf, hd⟩ | ⟨hf, hd⟩ | ⟨hf, hd⟩ | ⟨hf, hd⟩ :=
    decodeOpImm_cases w <;> rw [hd] at h
  on_goal 8 => exact encode_of_decodeRightShift hop hf h
  on_goal 7 =>
    cases h
    exact ⟨rfl, (encodeShift_fields_eq_iff w _ _).2 ⟨hop, hf, rfl⟩⟩
  all_goals
    cases h
    exact ⟨immFits_immI w, (encodeI_fields_eq_iff w _).2 ⟨hop, hf⟩⟩

/-- No bit of an accepted word is dropped. -/
theorem encode_of_decodeWord {w : Word} {i : Instr} (h : decodeWord w = .ok i) :
    i.wellFormed = true ∧ encode i = w := by
  obtain ⟨hop, -⟩ | ⟨hop, -⟩ | ⟨hop, -⟩ | ⟨hop₁, hop₂, hop₃, -⟩ := opcodeClass_cases (opcodeOf w)
  · exact encode_of_decodeOpImm hop (decodeWord_opImm hop ▸ h)
  · rw [decodeWord_load hop] at h
    cases h
    exact ⟨rfl, append_of_opcodeOf hop⟩
  · rw [decodeWord_store hop] at h
    cases h
    exact ⟨rfl, append_of_opcodeOf hop⟩
  · simp [decodeWord_other hop₁ hop₂ hop₃] at h

/-! ### Decode of encode -/

/-- An immediate in range survives the twelve bits of its field (R54). -/
theorem immI_encodeI {imm : Word} (h : immFits imm = true) (f : BitVec 3) (rd rs1 : Reg) :
    immI (encodeI f rd rs1 imm) = imm := by
  rw [immI, immField_encodeI, signExtend_low12_of_immFits h]

/-- The decoder on an I-format word: only `funct3` is left to look at (R63). -/
theorem decodeWord_encodeI (f : BitVec 3) (rd rs1 : Reg) (imm : Word) :
    decodeWord (encodeI f rd rs1 imm) = decodeOpImm (encodeI f rd rs1 imm) :=
  decodeWord_opImm (opcodeOf_encodeI f rd rs1 imm)

theorem decodeWord_encodeShift (g : BitVec 7) (f : BitVec 3) (rd rs1 : Reg) (k : BitVec 5) :
    decodeWord (encodeShift g f rd rs1 k) = decodeOpImm (encodeShift g f rd rs1 k) :=
  decodeWord_opImm (opcodeOf_encodeShift g f rd rs1 k)

theorem decodeWord_encode {i : Instr} (h : i.wellFormed = true) : decodeWord (encode i) = .ok i := by
  cases i with
  | addi rd rs1 imm | slti rd rs1 imm | sltiu rd rs1 imm | xori rd rs1 imm | ori rd rs1 imm | andi rd rs1 imm =>
    simp [encode, decodeWord_encodeI, decodeOpImm, immI_encodeI h]
  | slli rd rs1 k g => simp [encode, decodeWord_encodeShift, decodeOpImm]
  | srli rd rs1 k | srai rd rs1 k => simp [encode, decodeWord_encodeShift, decodeOpImm, decodeRightShift]
  | load rest => simp [encode, decodeWord_load (opcodeOf_append rest _)]
  | store rest => simp [encode, decodeWord_store (opcodeOf_append rest _)]

/-- What the decoder accepts, said by the encoder alone. -/
theorem decodeWord_eq_ok_iff (w : Word) (i : Instr) : decodeWord w = .ok i ↔ i.wellFormed = true ∧ encode i = w := by
  constructor
  · exact encode_of_decodeWord
  · rintro ⟨hi, rfl⟩
    exact decodeWord_encode hi

/-- The four bytes of a word, put together again, are the word (20_memory.md R34). -/
theorem wordOfBytes_bytes (w : Word) :
    wordOfBytes (w.extractLsb' 0 8) (w.extractLsb' 8 8) (w.extractLsb' 16 8) (w.extractLsb' 24 8) = w := by
  refine BitVec.eq_of_getLsbD_eq fun k hk => ?_
  simp only [wordOfBytes, BitVec.getLsbD_append, BitVec.getLsbD_extractLsb']
  grind

theorem decode_encodeBytes_append {i : Instr} (h : i.wellFormed = true) (rest : List Byte) :
    decode (encodeBytes i ++ rest) = .ok (i, rest) := by
  simp only [encodeBytes, bytesOfWord, List.cons_append, List.nil_append, decode]
  rw [wordOfBytes_bytes, decodeWord_encode h]
  rfl

/-- Settles O12: the fields of the encoded word are the operands, and its four bytes are the word. -/
theorem encodeThenDecodeIsIdentity : Obligations.EncodeThenDecodeIsIdentity :=
  fun _ hi => ⟨decodeWord_encode hi, decode_encodeBytes_append hi⟩

/-- Settles O13: the encoder puts every field the decoder read back to its place. -/
theorem decodeThenEncodeIsIdentity : Obligations.DecodeThenEncodeIsIdentity :=
  fun _ _ => encode_of_decodeWord

/-! ### The masks and matches of the opcode table (R72) -/

/-- Seven rows of the table select by `funct3`. -/
theorem and_opImmMask_eq_iff (w : Word) (f : BitVec 3) :
    w &&& 0x0000707F#32 = selectorWord 0#7 f 0b0010011#7 ↔ opcodeOf w = 0b0010011#7 ∧ funct3Of w = f := by
  simp [and_opImmMask, selectorWord_inj]

/-- The two right shifts select by `funct3` and `funct7`. -/
theorem and_shiftMask_eq_iff (w : Word) (g : BitVec 7) (f : BitVec 3) :
    w &&& 0xFE00707F#32 = selectorWord g f 0b0010011#7 ↔
      opcodeOf w = 0b0010011#7 ∧ funct3Of w = f ∧ funct7Of w = g := by
  rw [and_shiftMask, selectorWord_inj]

/-- The two classes without a handler select by the opcode. -/
theorem and_classMask_eq_iff (w : Word) (op : BitVec 7) :
    w &&& 0x0000007F#32 = selectorWord 0#7 0#3 op ↔ opcodeOf w = op := by
  simp [and_classMask, selectorWord_inj]

theorem decodeWord_eq_load_iff (w : Word) :
    (∃ rest, decodeWord w = .ok (.load rest)) ↔ opcodeOf w = 0b0000011#7 := by
  simp [decodeWord_eq_ok_iff, Instr.wellFormed, encode, exists_append_eq_iff]

theorem decodeWord_eq_store_iff (w : Word) :
    (∃ rest, decodeWord w = .ok (.store rest)) ↔ opcodeOf w = 0b0100011#7 := by
  simp [decodeWord_eq_ok_iff, Instr.wellFormed, encode, exists_append_eq_iff]

/-- A word decodes to the instruction of its own I-type fields exactly where its selectors are that instruction's. -/
theorem opImmMask_iff_decodeWord_iType {w : Word} {i : Instr} {f : BitVec 3} (hi : i.wellFormed = immFits (immI w))
    (he : encode i = encodeI f (rdOf w) (rs1Of w) (immI w)) :
    w &&& 0x0000707F#32 = selectorWord 0#7 f 0b0010011#7 ↔ decodeWord w = .ok i := by
  rw [decodeWord_eq_ok_iff, hi, he, encodeI_fields_eq_iff, and_opImmMask_eq_iff]
  simp [immFits_immI]

/-- The same for SLLI, whose ignored bits are the word's `funct7`. -/
theorem opImmMask_iff_decodeWord_slli (w : Word) : w &&& 0x0000707F#32 = selectorWord 0#7 0b001#3 0b0010011#7 ↔
    decodeWord w = .ok (.slli (rdOf w) (rs1Of w) (shamtOf w) (funct7Of w)) := by
  rw [decodeWord_eq_ok_iff, and_opImmMask_eq_iff]
  simp [Instr.wellFormed, encode, encodeShift_fields_eq_iff]

/-- The same for the two right shifts. -/
theorem shiftMask_iff_decodeWord_rightShift {w : Word} {i : Instr} {g : BitVec 7} (hi : i.wellFormed = true)
    (he : encode i = encodeShift g 0b101#3 (rdOf w) (rs1Of w) (shamtOf w)) :
    w &&& 0xFE00707F#32 = selectorWord g 0b101#3 0b0010011#7 ↔ decodeWord w = .ok i := by
  rw [decodeWord_eq_ok_iff, he, encodeShift_fields_eq_iff, and_shiftMask_eq_iff]
  simp [hi]

/-- Settles O10: under its mask a word is its selector fields, and these are what the encoder puts into the row's
words. -/
theorem decodeMatchesOpcodeTable : Obligations.DecodeMatchesOpcodeTable := by
  intro w
  have hIType {i : Instr} (f : BitVec 3) := opImmMask_iff_decodeWord_iType (w := w) (i := i) (f := f)
  have hShift {i : Instr} (g : BitVec 7) := shiftMask_iff_decodeWord_rightShift (w := w) (i := i) (g := g)
  exact ⟨hIType 0b000#3 rfl rfl, hIType 0b010#3 rfl rfl, hIType 0b011#3 rfl rfl, hIType 0b100#3 rfl rfl,
    hIType 0b110#3 rfl rfl, hIType 0b111#3 rfl rfl, opImmMask_iff_decodeWord_slli w,
    hShift 0b0000000#7 rfl rfl, hShift 0b0100000#7 rfl rfl,
    (and_classMask_eq_iff w _).trans (decodeWord_eq_load_iff w).symm,
    (and_classMask_eq_iff w _).trans (decodeWord_eq_store_iff w).symm⟩

end Sys2Proof
end

section
/-! Which words have a handler, the classes without one, and the shift amount (30_encoding.md R59, R65,
43_unimplemented_classes.md). -/

namespace Sys2Proof.Machine

/-! ### The nine patterns and the decoder -/

/-- The values of `funct3` that select an instruction alone, whatever `funct7` (R63). -/
def lonelyFunct3s : List (BitVec 3) := [0b000#3, 0b010#3, 0b011#3, 0b100#3, 0b110#3, 0b111#3, 0b001#3]

/-- The values of `funct7` that select a right shift (R64). -/
def rightShiftFunct7s : List (BitVec 7) := [0b0000000#7, 0b0100000#7]

theorem mem_lonelyFunct3s (f : BitVec 3) : f ∈ lonelyFunct3s ↔ f ≠ 0b101#3 := by
  revert f
  decide

/-- The nine patterns are made of the selector fields. -/
theorem handlerPatterns_eq : handlerPatterns =
    lonelyFunct3s.map (fun f => (selectorWord 0#7 f 0b0010011#7, 0x0000707F#32)) ++
    rightShiftFunct7s.map (fun g => (selectorWord g 0b101#3 0b0010011#7, 0xFE00707F#32)) := by
  decide

/-- The words with a handler, by their selector fields (R65). -/
theorem hasHandler_iff (w : Word) : hasHandler w = true ↔ opcodeOf w = 0b0010011#7 ∧
    (funct3Of w = 0b101#3 → funct7Of w = 0b0000000#7 ∨ funct7Of w = 0b0100000#7) := by
  have hLonely := mem_lonelyFunct3s (funct3Of w)
  rw [hasHandler, handlerPatterns_eq, List.any_append, List.any_map, List.any_map]
  simp only [Bool.or_eq_true, List.any_eq_true, Function.comp_apply, beq_iff_eq, and_opImmMask_eq_iff,
    and_shiftMask_eq_iff, rightShiftFunct7s]
  grind

/-- The words without a handler. -/
theorem not_hasHandler_iff (w : Word) : hasHandler w = false ↔ opcodeOf w ≠ 0b0010011#7 ∨
    (funct3Of w = 0b101#3 ∧ funct7Of w ≠ 0b0000000#7 ∧ funct7Of w ≠ 0b0100000#7) := by
  rw [← Bool.not_eq_true, hasHandler_iff]
  tauto

theorem hasHandler_encode (i : Instr) : hasHandler (encode i) = i.implemented := by
  rw [Bool.eq_iff_iff, hasHandler_iff]
  cases i <;> simp [encode, Instr.implemented]

/-- A decoded word has a handler exactly where its instruction is one of the nine. -/
theorem hasHandler_of_decodeWord {w : Word} {i : Instr} (h : decodeWord w = .ok i) :
    hasHandler w = i.implemented := by
  obtain ⟨-, rfl⟩ := encode_of_decodeWord h
  exact hasHandler_encode i

/-- Within OP-IMM the decoder refuses nothing but a third `funct7` of the right shifts (R64). -/
theorem exists_decodeOpImm {w : Word}
    (h : funct3Of w = 0b101#3 → funct7Of w = 0b0000000#7 ∨ funct7Of w = 0b0100000#7) :
    ∃ i, decodeOpImm w = .ok i := by
  obtain ⟨-, hd⟩ | ⟨-, hd⟩ | ⟨-, hd⟩ | ⟨-, hd⟩ | ⟨-, hd⟩ | ⟨-, hd⟩ | ⟨-, hd⟩ | ⟨hf, hd⟩ := decodeOpImm_cases w
  on_goal 8 =>
    obtain ⟨-, hr⟩ | ⟨-, hr⟩ | ⟨hg₀, hg₁, -⟩ := decodeRightShift_cases w
    · exact ⟨_, hd.trans hr⟩
    · exact ⟨_, hd.trans hr⟩
    · exact absurd (h hf) (by simp [hg₀, hg₁])
  all_goals exact ⟨_, hd⟩

/-- Every word with a handler is one of the nine instructions. -/
theorem exists_implemented_of_hasHandler {w : Word} (h : hasHandler w = true) :
    ∃ i, decodeWord w = .ok i ∧ i.implemented = true := by
  obtain ⟨hop, hf⟩ := (hasHandler_iff w).1 h
  obtain ⟨i, hi⟩ := exists_decodeOpImm hf
  have hd := (decodeWord_opImm hop).trans hi
  exact ⟨i, hd, hasHandler_of_decodeWord hd ▸ h⟩

/-! ### Execution of a word with and without a handler -/

theorem executeWord_of_decodeWord {w : Word} {i : Instr} (h : decodeWord w = .ok i) (s : State) :
    executeWord w s = exec i s := by
  rw [executeWord, h]

/-- A word without a handler raises, decoded or not (R89, R90). -/
theorem executeWord_of_not_hasHandler {w : Word} (h : hasHandler w = false) (s : State) :
    executeWord w s = .next (s.raise .invalidInstruction) := by
  cases hd : decodeWord w with
  | ok i => rw [executeWord_of_decodeWord hd, exec_of_not_implemented (hasHandler_of_decodeWord hd ▸ h)]
  | error e =>
    rw [executeWord, hd]
    rfl

/-- The destination of a decoded instruction is the word's `rd` (10_state.md R14). -/
theorem dest_of_decodeWord {w : Word} {i : Instr} (hi : i.implemented = true) (h : decodeWord w = .ok i) :
    i.dest = some (rdOf w) := by
  have hOperands := operandsOf_of_decodeWord h
  cases i with
  | load rest | store rest => cases hi
  | addi rd rs1 x | slti rd rs1 x | sltiu rd rs1 x | xori rd rs1 x | ori rd rs1 x | andi rd rs1 x | slli rd rs1 x y
  | srli rd rs1 x | srai rd rs1 x =>
    obtain ⟨hrd, -⟩ := hOperands
    exact congrArg some hrd

/-- A word with a handler writes its `rd` and nothing else (R86). -/
theorem executeWord_of_hasHandler {w : Word} (h : hasHandler w = true) (s : State) :
    ∃ i v, decodeWord w = .ok i ∧ exec i s = .next (s.writeReg (rdOf w) v) := by
  obtain ⟨i, hd, hi⟩ := exists_implemented_of_hasHandler h
  obtain ⟨-, rd, v, hDest, he⟩ | ⟨hi', -⟩ := exec_cases i s
  · rw [dest_of_decodeWord hi hd] at hDest
    cases hDest
    exact ⟨i, v, hd, he⟩
  · simp [hi] at hi'

/-! ### The statements -/

/-- Settles O11: the patterns as selector fields, and what executing a word with and without a handler does. -/
theorem illegalWordsAreTheRest : Obligations.IllegalWordsAreTheRest := by
  refine ⟨not_hasHandler_iff, fun w s h => ?_, fun w => exists_implemented_of_hasHandler, by decide, by decide⟩
  exact ⟨_, executeWord_of_not_hasHandler h s, rfl, State.sameButStatus_raise s _⟩

/-- Settles O8: the operands of a decoded shift are the word's, and `exec` of SLLI does not look at the ignored bits. -/
theorem shiftAmountIsLowImmediateBits : Obligations.ShiftAmountIsLowImmediateBits := by
  refine ⟨fun w => ⟨shamtOf_eq_setWidth w, ?_, Nat.le_of_lt_succ (shamtOf w).isLt⟩, fun w rd rs1 k g h => ?_,
    fun w rd rs1 k h => ?_, fun w rd rs1 k h => ?_, fun _ _ _ _ _ _ => rfl⟩
  · rw [shamtOf_eq_rs2Of, rs2Of, BitVec.extractLsb'_toNat, Nat.shiftRight_eq_div_pow]
  all_goals
    obtain ⟨-, -, hk, hg⟩ := operandsOf_of_decodeWord h
    exact ⟨hk, hg⟩

/-- Settles O1: the decoder evaluated on each word. -/
theorem sampleWordsDecode : Obligations.SampleWordsDecode := by
  unfold Obligations.SampleWordsDecode
  decide

/-- Settles O25: the opcode alone selects the class, and the class raises. -/
theorem loadClassRaises : Obligations.LoadClassRaises :=
  ⟨fun w => (decodeWord_eq_load_iff w).2, fun _ => noHandler_spec⟩

/-- Settles O26: the opcode alone selects the class, and the class raises. -/
theorem storeClassRaises : Obligations.StoreClassRaises :=
  ⟨fun w => (decodeWord_eq_store_iff w).2, fun _ => noHandler_spec⟩

/-- Settles O27: none of the words matches a pattern. -/
theorem namedClassesRaise : Obligations.NamedClassesRaise := by
  intro w hw s
  have hNone := (List.all_eq_true (p := fun w => !hasHandler w)).1 (by decide) w hw
  exact executeWord_of_not_hasHandler (by simpa using hNone) s

end Sys2Proof.Machine
end

section
/-! The assembler's lines (30_encoding.md R68). -/

namespace Sys2Proof

/-! ### Operands in range are held by their bits -/

theorem toInt_ofInt_of_immRange {o : Int} (h : -2048 ≤ o ∧ o ≤ 2047) : (BitVec.ofInt 32 o).toInt = o := by
  rw [BitVec.toInt_ofInt]
  exact Int.bmod_eq_of_le (by omega) (by omega)

theorem immFits_ofInt {o : Int} (h : -2048 ≤ o ∧ o ≤ 2047) : immFits (BitVec.ofInt 32 o) = true := by
  simp [immFits, toInt_ofInt_of_immRange h, h]

theorem toNat_ofInt_of_shamtRange {o : Int} (h : 0 ≤ o ∧ o ≤ 31) : ((BitVec.ofInt 5 o).toNat : Int) = o := by
  rw [BitVec.toNat_ofInt]
  omega

theorem toNat_ofNat_reg {n : Nat} (h : n < 32) : (BitVec.ofNat 5 n).toNat = n := by
  rw [BitVec.toNat_ofNat]
  exact Nat.mod_eq_of_lt h

/-! ### Lines -/

/-- The mnemonics whose third operand is a shift amount. -/
abbrev Mnemonic.IsShift (m : Mnemonic) : Prop := m = .slli ∨ m = .srli ∨ m = .srai

/-- The ranges of R68. -/
def AsmLine.OperandsFit (l : AsmLine) : Prop :=
  l.rd < 32 ∧ l.rs1 < 32 ∧
    if l.mnemonic.IsShift then 0 ≤ l.operand ∧ l.operand ≤ 31 else -2048 ≤ l.operand ∧ l.operand ≤ 2047

theorem AsmLine.isSome_assemble_iff (l : AsmLine) : l.assemble.isSome = true ↔ l.OperandsFit := by
  obtain ⟨m, rd, rs1, o⟩ := l
  cases m <;> simp [AsmLine.assemble, AsmLine.OperandsFit, and_assoc]

/-- Settles O14: operands in range are held by their bits, and the encoder keeps the bits. -/
theorem assemblerLineRangesAndFields : Obligations.AssemblerLineRangesAndFields := by
  refine ⟨AsmLine.isSome_assemble_iff, fun ⟨m, rd, rs1, o⟩ i h => ?_⟩
  obtain ⟨hrd, hrs1, ho⟩ := (AsmLine.isSome_assemble_iff _).1 (Option.isSome_of_mem h)
  cases m with
  | addi | slti | sltiu | xori | ori | andi =>
    replace ho : -2048 ≤ o ∧ o ≤ 2047 := by simpa [Mnemonic.IsShift] using ho
    obtain rfl : _ = i := by simpa [AsmLine.assemble, hrd, hrs1, ho] using h
    simp [encode, Instr.wellFormed, immFits_ofInt ho, immI_encodeI (immFits_ofInt ho), toInt_ofInt_of_immRange ho,
      toNat_ofNat_reg hrd, toNat_ofNat_reg hrs1]
  | slli | srli | srai =>
    replace ho : 0 ≤ o ∧ o ≤ 31 := by simpa [Mnemonic.IsShift] using ho
    obtain rfl : _ = i := by simpa [AsmLine.assemble, hrd, hrs1, ho] using h
    simp [encode, Instr.wellFormed, toNat_ofInt_of_shamtRange ho, toNat_ofNat_reg hrd, toNat_ofNat_reg hrs1,
      -BitVec.toNat_ofInt]

end Sys2Proof
end

section
/-! What the comparisons, the logic instructions and the shifts write (41_op_imm_arith.md, 42_op_imm_shift.md). -/

namespace Sys2Proof.Machine

/-! ### The functions of the source's value -/

theorem toNat_truthWord (p : Prop) [Decidable p] : (truthWord (decide p)).toNat = if p then 1 else 0 := by
  by_cases h : p <;> simp [truthWord, h]

/-- Bits leaving bit 31 are lost, so the product is reduced (R110, R111). -/
theorem toNat_shiftLeft (v : Word) (k : BitVec 5) : (shiftLeft v k).toNat = v.toNat * 2 ^ k.toNat % 2 ^ 32 := by
  rw [shiftLeft, BitVec.toNat_shiftLeft, Nat.shiftLeft_eq]

theorem toNat_shiftRightLogical (v : Word) (k : BitVec 5) :
    (shiftRightLogical v k).toNat = v.toNat / 2 ^ k.toNat := by
  rw [shiftRightLogical, BitVec.toNat_ushiftRight, Nat.shiftRight_eq_div_pow]

/-- Copies of the sign bit make the quotient round toward minus infinity (R110, R113). -/
theorem toInt_shiftRightArith (v : Word) (k : BitVec 5) :
    (shiftRightArith v k).toInt = Int.fdiv v.toInt (2 ^ k.toNat) := by
  rw [shiftRightArith, BitVec.toInt_sshiftRight, Int.shiftRight_eq_div_pow,
    Int.fdiv_eq_ediv_of_nonneg _ (by positivity)]
  norm_cast

/-! ### The handler shape, read as a number or bit by bit -/

/-- A reading of the destination after a handler, given that reading of `f` and of zero. -/
theorem opImm_reading {α : Type} (read : Word → α) {f : Word → Word} {g : Word → α} {z : α}
    (hf : ∀ a, read (f a) = g a) (hz : read 0#32 = z) (rd rs1 : Reg) (s : State) :
    ∃ t, opImm f rd rs1 s = .next t ∧ read (t.readReg rd) = (if rd = 0#5 then z else g (s.readReg rs1)) ∧
      SameExcept rd s t := by
  obtain ⟨t, ht, hrd, hSame⟩ := opImm_spec f rd rs1 s
  exact ⟨t, ht, by rw [hrd, apply_ite read, hf, hz], hSame⟩

/-- The bits of the destination after a handler, given those of `f`; none is set in `x0`. -/
theorem opImm_bits (f : Word → Word) (p : Word → Nat → Prop)
    (hf : ∀ a k, k < 32 → ((f a).getLsbD k = true ↔ p a k)) (rd rs1 : Reg) (s : State) :
    ∃ t, opImm f rd rs1 s = .next t ∧
      (∀ k, k < 32 → ((t.readReg rd).getLsbD k = true ↔ rd ≠ 0#5 ∧ p (s.readReg rs1) k)) ∧ SameExcept rd s t := by
  obtain ⟨t, ht, hrd, hSame⟩ := opImm_spec f rd rs1 s
  refine ⟨t, ht, fun k hk => ?_, hSame⟩
  by_cases h : rd = 0#5
  · simp [h]
  · simp [hrd, h, hf _ k hk]

/-! ### The statements -/

/-- Settles O16: the truth word of the signed comparison. -/
theorem sltiMeaning : Obligations.SltiMeaning := fun rd rs1 imm s =>
  opImm_reading BitVec.toNat (fun a => toNat_truthWord (a.toInt < imm.toInt)) rfl rd rs1 s

/-- Settles O17: the truth word of the unsigned comparison. -/
theorem sltiuMeaning : Obligations.SltiuMeaning := fun rd rs1 imm s =>
  opImm_reading BitVec.toNat (fun a => toNat_truthWord (a.toNat < imm.toNat)) rfl rd rs1 s

/-- Settles O18: a bit of the exclusive or is set where the operands' bits differ. -/
theorem xoriMeaning : Obligations.XoriMeaning := fun rd rs1 imm s =>
  opImm_bits (fun a => a ^^^ imm) (fun a k => a.getLsbD k ≠ imm.getLsbD k) (fun a k _ => by simp) rd rs1 s

/-- Settles O19: a bit of the or is set where an operand's is. -/
theorem oriMeaning : Obligations.OriMeaning := fun rd rs1 imm s =>
  opImm_bits (fun a => a ||| imm) (fun a k => a.getLsbD k = true ∨ imm.getLsbD k = true) (fun a k _ => by simp) rd rs1 s

/-- Settles O20: a bit of the and is set where both operands' are. -/
theorem andiMeaning : Obligations.AndiMeaning := fun rd rs1 imm s =>
  opImm_bits (fun a => a &&& imm) (fun a k => a.getLsbD k = true ∧ imm.getLsbD k = true) (fun a k _ => by simp) rd rs1 s

/-- Settles O21: `exec` does not look at the ignored bits, and the left shift is the product modulo 2^32. -/
theorem slliMeaning : Obligations.SlliMeaning := fun rd rs1 shamt _ s =>
  opImm_reading BitVec.toNat (fun a => toNat_shiftLeft a shamt) rfl rd rs1 s

/-- Settles O22: the logical right shift is the unsigned quotient. -/
theorem srliMeaning : Obligations.SrliMeaning := fun rd rs1 shamt s =>
  opImm_reading BitVec.toNat (fun a => toNat_shiftRightLogical a shamt) rfl rd rs1 s

/-- Settles O23: the arithmetic right shift is the signed quotient, rounded down. -/
theorem sraiMeaning : Obligations.SraiMeaning := fun rd rs1 shamt s =>
  opImm_reading BitVec.toInt (fun a => toInt_shiftRightArith a shamt) rfl rd rs1 s

end Sys2Proof.Machine
end

section
/-! What a step does with a word that has a handler and with one that has not (40_step_and_dispatch.md R81, R88,
60_exceptions.md R131, R136). -/

namespace Sys2Proof.Machine

/-! ### The step, by the fetched word -/

/-- Line 3 and line 4 of the step (R81), for a word that was fetched. -/
theorem step_of_fetch {s : State} {w : Word} (hr : s.status = .running) (hc : s.cfg.wellFormed = true)
    (hf : s.fetch = .ok w) : step s = endStep (executeWord w s.advancePc) := by
  rw [step_running hr hc, runningStep, hf]

/-- A word with a handler writes its `rd`, and the halt test follows. -/
theorem step_of_hasHandler {s : State} {w : Word} (hr : s.status = .running) (hc : s.cfg.wellFormed = true)
    (hf : s.fetch = .ok w) (hw : hasHandler w = true) :
    ∃ i v, decodeWord w = .ok i ∧ exec i s.advancePc = .next (s.advancePc.writeReg (rdOf w) v) ∧
      step s = .next (s.advancePc.writeReg (rdOf w) v).haltTest := by
  obtain ⟨i, v, hd, he⟩ := executeWord_of_hasHandler hw s.advancePc
  refine ⟨i, v, hd, he, ?_⟩
  rw [step_of_fetch hr hc hf, executeWord_of_decodeWord hd, he, endStep]

/-- A word without one raises after the program counter was advanced, and there is no halt test (R136, R138). -/
theorem step_of_not_hasHandler {s : State} {w : Word} (hr : s.status = .running) (hc : s.cfg.wellFormed = true)
    (hf : s.fetch = .ok w) (hw : hasHandler w = false) :
    step s = .next (s.advancePc.raise .invalidInstruction) := by
  rw [step_of_fetch hr hc hf, executeWord_of_not_hasHandler hw, endStep, State.haltTest_of_not_running _ (by simp)]

/-- `step_cases`, with the word's pattern for the decoder's answer and `rd` for the destination. -/
theorem step_cases_hasHandler {s t : State} (h : step s = .next t) :
    s.status = .running ∧ s.cfg.wellFormed = true ∧
    ((¬ InRange s.cfg s.pc 4 ∧ t = s.raise .addressFault) ∨
     ∃ w, s.fetch = .ok w ∧
      ((hasHandler w = true ∧ ∃ i v, decodeWord w = .ok i ∧
          exec i s.advancePc = .next (s.advancePc.writeReg (rdOf w) v) ∧
          t = (s.advancePc.writeReg (rdOf w) v).haltTest) ∨
       (hasHandler w = false ∧ t = s.advancePc.raise .invalidInstruction))) := by
  obtain ⟨hr, hc, hFault | ⟨w, hf, -⟩⟩ := step_cases h
  · exact ⟨hr, hc, .inl hFault⟩
  · refine ⟨hr, hc, .inr ⟨w, hf, ?_⟩⟩
    cases hw : hasHandler w with
    | true =>
      obtain ⟨i, v, hd, he, hs⟩ := step_of_hasHandler hr hc hf hw
      exact .inl ⟨rfl, i, v, hd, he, by simpa [h] using hs⟩
    | false => exact .inr ⟨rfl, by simpa [h] using step_of_not_hasHandler hr hc hf hw⟩

/-- The status after a word with a handler, by the halt test alone (R88). -/
theorem status_haltTest_advancePc {s : State} (hr : s.status = .running) (rd : Reg) (v : Word) :
    (s.advancePc.writeReg rd v).haltTest.status = if s.pc + 4#32 = 0#32 then .halted else .running := by
  simp [State.haltTest_status, hr]

/-- Where the program counter is after a fetch in range: inside the memory or at its end, unless the memory ends at 2^32
and the fetch was its last word (R17, R88). -/
theorem advancePc_cases {s : State} (hc : s.cfg.wellFormed = true) (hin : InRange s.cfg s.pc 4) :
    (s.pc ≠ 0xFFFFFFFC#32 ∧ s.pc + 4#32 ≠ 0#32 ∧ (s.pc + 4#32).toNat = s.pc.toNat + 4) ∨
    (s.pc = 0xFFFFFFFC#32 ∧ s.pc + 4#32 = 0#32 ∧ s.cfg.memBase + s.cfg.memSize = 2 ^ 32) := by
  obtain ⟨-, -, hTop⟩ := (wellFormed_iff s.cfg).1 hc
  obtain ⟨-, hHigh⟩ := hin
  by_cases h : s.pc = 0xFFFFFFFC#32
  · refine .inr ⟨h, by rw [h]; rfl, ?_⟩
    rw [h, show (0xFFFFFFFC#32).toNat = 4294967292 from rfl] at hHigh
    omega
  · refine .inl ⟨h, ?_, ?_⟩ <;> bv_omega

/-! ### The statements -/

/-- Settles O29: a write to `x0` is discarded, so the halt test sees the state with the program counter advanced. -/
theorem zeroDestinationOnlyAdvances : Obligations.ZeroDestinationOnlyAdvances := by
  intro s w hr hc hf hw hrd
  obtain ⟨i, v, -, -, hs⟩ := step_of_hasHandler hr hc hf hw
  rw [hs, hrd, State.writeReg_zero]
  by_cases h : s.pc + 4#32 = 0#32 <;> simp [State.haltTest, State.advancePc, hr, h]

/-- Settles O30: of the three ends of a step only that of a word with a handler writes a register. -/
theorem stepWritesOnlyTheDestination : Obligations.StepWritesOnlyTheDestination := by
  intro s t r h hne
  obtain ⟨-, -, ⟨-, rfl⟩ | ⟨w, hf, ⟨hw, i, v, -, -, rfl⟩ | ⟨-, rfl⟩⟩⟩ := step_cases_hasHandler h
  · simp at hne
  · refine ⟨w, hf, hw, ?_⟩
    by_contra hr
    simp [State.readReg_writeReg, hr] at hne
  · simp at hne

/-- Settles O31: lines 2 to 4 of the step on a decoded word. -/
theorem stepRunsTheDecodedInstruction : Obligations.StepRunsTheDecodedInstruction := by
  intro s w i hr hc hf hd
  obtain ⟨hi, -⟩ := encode_of_decodeWord hd
  refine ⟨hi, ?_⟩
  rw [step_of_fetch hr hc hf, executeWord_of_decodeWord hd]
  rfl

/-- Settles O34: a word with a handler ends in `Running` or `Halted`, one without in the fault. -/
theorem wordWithoutHandlerFaults : Obligations.WordWithoutHandlerFaults := by
  intro s w hr hc hf
  cases hw : hasHandler w with
  | true =>
    obtain ⟨i, v, -, -, hs⟩ := step_of_hasHandler hr hc hf hw
    refine ⟨_, hs, ?_, by simp⟩
    rw [status_haltTest_advancePc hr]
    split <;> simp
  | false =>
    exact ⟨_, step_of_not_hasHandler hr hc hf hw, by simp, fun _ => ⟨rfl, rfl, fun r => by simp,
      fun a => State.byteAt_congr rfl rfl a⟩⟩

/-- Settles O36: only a word with a handler reaches the halt test, and the program counter is 0 there exactly after
`0xFFFFFFFC`. -/
theorem haltExactlyAtTheWrap : Obligations.HaltExactlyAtTheWrap := by
  intro s t h
  obtain ⟨hr, hc, ⟨hin, rfl⟩ | ⟨w, hf, ⟨hw, i, v, hd, he, rfl⟩ | ⟨hw, rfl⟩⟩⟩ := step_cases_hasHandler h
  · simp [State.fetch_of_not_inRange hin]
  · have hStatus := status_haltTest_advancePc hr (rdOf w) v
    obtain ⟨hpc, hpc', -⟩ | ⟨hpc, hpc', hEnd⟩ := advancePc_cases hc (State.inRange_of_fetch hf)
    · simp [hStatus, hpc, hpc']
    · refine ⟨by simp [hStatus, hpc, hf, hw], fun _ => ⟨by simp [hpc'], hEnd, w, i, _, hf, hd, he, fun r => by simp⟩⟩
  · simp [hf, hw]

/-- Settles O37: the raise comes before the halt test. -/
theorem illegalWordAtTheTopIsNotHalt : Obligations.IllegalWordAtTheTopIsNotHalt := by
  intro s w hr hc hpc hf hw
  exact ⟨_, step_of_not_hasHandler hr hc hf hw, rfl, by simp [hpc]⟩

/-- Settles O38: the reason is read off the status, and `step_cases` says what a step starts from. -/
theorem finalStatusHasNoStep : Obligations.FinalStatusHasNoStep := by
  refine ⟨fun s h => ?_, fun s k h => ?_, fun s t h => (step_cases h).1⟩ <;> rw [step, unitStep, h]

end Sys2Proof.Machine
end

section
/-! Which accesses are in range, and what is read inside a write (20_memory.md R38, R40, R47). -/

namespace Sys2Proof.Machine

/-! ### Which accesses answer -/

theorem State.exists_memRead_iff (s : State) (addr : Word) (w : AccessWidth) :
    (∃ v, s.memRead addr w = .ok v) ↔ InRange s.cfg addr (widthBytes w) := by
  constructor
  · rintro ⟨v, h⟩
    exact State.inRange_of_memRead h
  · exact fun h => ⟨_, State.memRead_of_inRange h⟩

theorem widthBytes_pos (w : AccessWidth) : 0 < widthBytes w := by
  cases w <;> decide

/-- An access of at least one byte is in range exactly where each of its bytes is (R38). -/
theorem inRange_iff_forall (c : Config) (addr : Word) {n : Nat} (hn : 0 < n) :
    InRange c addr n ↔ ∀ k, k < n → c.memBase ≤ addr.toNat + k ∧ addr.toNat + k < c.memBase + c.memSize := by
  constructor
  · rintro ⟨hLow, hHigh⟩ k hk
    omega
  · intro h
    have hFirst := h 0 hn
    have hLast := h (n - 1) (by omega)
    exact ⟨by omega, by omega⟩

/-- The valid byte addresses (20_memory.md section 1). -/
theorem State.exists_byteAt_iff (s : State) (a : Word) :
    (∃ v, s.byteAt a = .ok v) ↔ s.cfg.memBase ≤ a.toNat ∧ a.toNat < s.cfg.memBase + s.cfg.memSize :=
  s.exists_memRead_iff a .byte

/-! ### A read inside a write -/

/-- The bytes from offset `j` on of an integer's bytes are those of its quotient by `256 ^ j`. -/
theorem Memory.readBytes_writeBytes_leBytes {m : Memory} (h : m.wf = true) (a : Nat) {j n n' : Nat} (v : Int)
    (hj : j + n' ≤ n) : (m.writeBytes a (leBytes n v)).readBytes (a + j) n' = leBytes n' (v / 256 ^ j) := by
  refine List.ext_getElem? fun k => ?_
  by_cases hk : k < n'
  · rw [Memory.getElem?_readBytes _ _ _ _ hk, getElem?_leBytes _ _ _ hk, Memory.readByte_writeBytes_leBytes h,
      if_pos (by omega), show a + j + k - a = j + k by omega, pow_add, Int.ediv_ediv_of_nonneg (by positivity)]
  · rw [List.getElem?_eq_none (by rw [Memory.length_readBytes]; omega),
      List.getElem?_eq_none (by rw [length_leBytes]; omega)]

/-- A read inside a write answers the written integer's bits there (R40). -/
theorem State.memRead_inside_memWrite {s t : State} {addr : Word} {w w' : AccessWidth} {j : Nat} {v : Int}
    (hc : s.cfg.wellFormed = true) (hm : s.mem.wf = true) (h : s.memWrite addr w v = .ok t)
    (hj : j + widthBytes w' ≤ widthBytes w) :
    t.memRead (addr + BitVec.ofNat 32 j) w' = .ok (leValue (leBytes (widthBytes w') (v / 256 ^ j))) := by
  obtain ⟨⟨hLow, hHigh⟩, hcfg, hmem⟩ := State.cfg_mem_of_memWrite h
  obtain ⟨-, -, hTop⟩ := (wellFormed_iff s.cfg).1 hc
  have hPos := widthBytes_pos w'
  have hSum : (addr + BitVec.ofNat 32 j).toNat = addr.toNat + j := toNat_add_ofNat (by omega)
  have hin : InRange t.cfg (addr + BitVec.ofNat 32 j) (widthBytes w') := by
    rw [hcfg, InRange, hSum]
    omega
  rw [State.memRead_of_inRange hin, hSum, hmem, Memory.readBytes_writeBytes_leBytes hm _ _ hj]

/-! ### The statements -/

/-- Settles O44: the value of the bytes read is the quotient's, reduced to their bits. -/
theorem readBackAtAnyWidth : Obligations.ReadBackAtAnyWidth := by
  intro s t addr n n' j v hc hm h hj
  refine ⟨_, State.memRead_inside_memWrite hc hm h hj, ?_⟩
  rw [leValue_leBytes, pow_mul, pow_mul]
  rfl

/-- Settles O45: a read answers where it is in range, and its range is that of its bytes. -/
theorem accessInRangeIffEveryByteIs : Obligations.AccessInRangeIffEveryByteIs := fun s addr n =>
  (s.exists_memRead_iff addr n).trans (inRange_iff_forall s.cfg addr (widthBytes_pos n))

/-- Settles O47: the fetch reads back the four bytes, and a word loses no bit in them. -/
theorem fetchSeesTheWordJustWritten : Obligations.FetchSeesTheWordJustWritten := by
  intro s t v hc hm h
  have hpc : t.pc = s.pc := by
    obtain ⟨-, he⟩ | ⟨-, he⟩ := State.memWrite_cases s s.pc .word v.toNat <;> rw [he] at h <;> cases h
    rfl
  rw [State.fetch, hpc, State.memRead_of_memWrite hm h, Except.map]
  have hv : ((v.toNat : Int) % 2 ^ (8 * widthBytes .word)).toNat = v.toNat := by
    have := v.isLt
    simp only [widthBytes]
    omega
  rw [hv, BitVec.ofNat_toNat, BitVec.setWidth_eq]

end Sys2Proof.Machine
end

section
/-! Reset, launch and the invariant they establish (10_state.md R25, 20_memory.md R46, 70_reset_and_hazards.md R150). -/

namespace Sys2Proof.Machine

/-! ### The reset values -/

section
variable {c : Config} (hc : c.wellFormed = true) (m : Memory)
include hc

theorem toNat_resetPc : (resetPc c).toNat = c.memBase := by
  obtain ⟨-, hSize, hTop⟩ := (wellFormed_iff c).1 hc
  rw [resetPc, BitVec.toNat_ofNat]
  omega

/-- A running unit just reset is inside its memory, on a word boundary. -/
theorem inv_resetWith (hm : m.wf = true) (hin : m.within c.memBase (c.memBase + c.memSize) = true) :
    (State.resetWith c m).Inv := by
  obtain ⟨hBase, -, -⟩ := (wellFormed_iff c).1 hc
  have hpc := toNat_resetPc hc
  refine ⟨hc, ⟨hm, hin⟩, by rw [State.resetWith_pc, hpc, hBase], ?_⟩
  simp [State.PhaseOk, hpc]

end

theorem toNat_sp_resetWith (c : Config) (m : Memory) :
    ((State.resetWith c m).readReg 2#5).toNat = (c.memBase + c.memSize) % 2 ^ 32 := by
  rw [readReg_resetWith, if_pos rfl, BitVec.toNat_ofNat]

theorem readReg_resetWith_of_ne (c : Config) (m : Memory) {r : Reg} (hr : r ≠ 2#5) :
    (State.resetWith c m).readReg r = 0#32 := by
  rw [readReg_resetWith, if_neg hr]

/-- What launches: a legal configuration and an image that fits (R46). -/
theorem launch_of_fits {c : Config} {image : List Byte} (hc : c.wellFormed = true) (h : image.length ≤ c.memSize) :
    launch c image = .ok (State.resetWith c (Memory.writeBytes [] c.memBase image)) := by
  simp [launch, loadImage, hc, h, Except.map]

theorem launch_of_oversized {c : Config} {image : List Byte} (hc : c.wellFormed = true)
    (h : c.memSize < image.length) : launch c image = .error .imageTooLarge := by
  simp [launch, loadImage, hc, Nat.not_le.2 h, Except.map]

/-- The invariant after a launch: the image is written into the empty memory and fits (log entry 2). -/
theorem inv_of_launch {c : Config} {image : List Byte} {s : State} (h : launch c image = .ok s) : s.Inv := by
  obtain ⟨hc, hFits, rfl⟩ := launch_cases h
  exact inv_resetWith hc _ (Memory.wf_writeBytes image c.memBase rfl)
    (Memory.within_writeBytes image c.memBase le_rfl (by omega) rfl)

/-! ### The statements -/

/-- Settles O46: the bytes of the memory, of which the address below the reset stack pointer is the last. -/
theorem validAddressesAreTheMemory : Obligations.ValidAddressesAreTheMemory := by
  refine ⟨State.exists_byteAt_iff, fun s hc hEnd => ?_⟩
  obtain ⟨-, hSize, -⟩ := (wellFormed_iff s.cfg).1 hc
  have hsp : (s.applyReset.readReg 2#5).toNat = s.cfg.memBase + s.cfg.memSize :=
    (toNat_sp_resetWith s.cfg s.mem).trans (Nat.mod_eq_of_lt hEnd)
  refine ⟨State.memRead_of_not_inRange fun ⟨_, hHigh⟩ => ?_, (s.exists_byteAt_iff _).2 ?_⟩
  · simp only [hsp, widthBytes] at hHigh
    omega
  · have hBelow : (s.applyReset.readReg 2#5 - 1#32).toNat = s.cfg.memBase + s.cfg.memSize - 1 := by bv_omega
    omega

/-- Settles O48: a launch state is a reset state. -/
theorem launchStateHasResetValues : Obligations.LaunchStateHasResetValues := by
  intro c image s h
  obtain ⟨hc, -, rfl⟩ := launch_cases h
  exact ⟨rfl, toNat_resetPc hc, rfl, toNat_sp_resetWith c _, fun r => readReg_resetWith_of_ne c _⟩

/-- Settles O49: the image's length is the one condition a legal configuration leaves. -/
theorem oversizedImageIsRefused : Obligations.OversizedImageIsRefused :=
  fun _ _ hc => ⟨launch_of_oversized hc, fun h => ⟨_, launch_of_fits hc h⟩⟩

/-- Settles O50: reset forgets the state but its configuration and memory, and a running unit has a step. -/
theorem resetOfAUsedUnit : Obligations.ResetOfAUsedUnit := fun s hc =>
  ⟨rfl, rfl, toNat_resetPc hc, toNat_sp_resetWith s.cfg s.mem, fun _ => readReg_resetWith_of_ne s.cfg s.mem,
    exists_step_of_running rfl hc⟩

/-- Settles O51: `State.reset` is a reset state over the empty memory, a launch state over the image. -/
theorem launchStateMeetsInvariant : Obligations.LaunchStateMeetsInvariant :=
  ⟨inv_resetWith (by decide) [] rfl rfl, fun _ _ _ => inv_of_launch⟩

end Sys2Proof.Machine
end

section
/-! The invariant of every run, and its end (40_step_and_dispatch.md R88, 60_exceptions.md R132, R138, R145). -/

namespace Sys2Proof.Machine

/-! ### The phase a step ends in -/

/-- What a running unit's phase says of its program counter (R138). -/
theorem State.phaseOk_of_running {s : State} (h : s.status = .running) :
    s.PhaseOk ↔ s.cfg.memBase ≤ s.pc.toNat ∧ s.pc.toNat ≤ s.cfg.memBase + s.cfg.memSize := by
  rw [State.PhaseOk, h]

/-- A fetch that faults leaves the program counter at a word not wholly inside the memory (R132). -/
theorem phaseOk_of_fetchFault {s : State} (hr : s.status = .running) (hp : s.PhaseOk) (hin : ¬ InRange s.cfg s.pc 4) :
    (s.raise .addressFault).PhaseOk := by
  obtain ⟨hLow, hHigh⟩ := (State.phaseOk_of_running hr).1 hp
  have hEnd : s.cfg.memBase + s.cfg.memSize < s.pc.toNat + 4 := by
    by_contra hNot
    exact hin ⟨hLow, by omega⟩
  exact ⟨hLow, hHigh, hEnd⟩

/-- A word with a handler leaves the unit running at the next word or at the end of the memory, or halted at the wrap
(R88). -/
theorem phaseOk_of_hasHandler {s : State} (hr : s.status = .running) (hc : s.cfg.wellFormed = true)
    (hin : InRange s.cfg s.pc 4) (rd : Reg) (v : Word) : (s.advancePc.writeReg rd v).haltTest.PhaseOk := by
  have hStatus := status_haltTest_advancePc hr rd v
  obtain ⟨-, hpc, hNext⟩ | ⟨-, hpc, hEnd⟩ := advancePc_cases hc hin
  · rw [if_neg hpc] at hStatus
    obtain ⟨hLow, hHigh⟩ := hin
    rw [State.phaseOk_of_running hStatus]
    simp only [State.haltTest_cfg, State.haltTest_pc, State.writeReg_cfg, State.writeReg_pc, State.advancePc_cfg,
      State.advancePc_pc, hNext]
    omega
  · rw [if_pos hpc] at hStatus
    simp [State.PhaseOk, hStatus, hpc, hEnd]

/-- A word without a handler is the one just before the program counter (R138). -/
theorem phaseOk_of_not_hasHandler {s : State} {w : Word} (hf : s.fetch = .ok w) (hw : hasHandler w = false) :
    (s.advancePc.raise .invalidInstruction).PhaseOk := by
  refine ⟨w.toNat, ?_, by simpa using hw⟩
  rw [← State.memRead_of_fetch hf]
  simp [State.memRead]

/-- Settles O52: a step writes neither configuration nor memory, keeps the alignment, and each of its three ends has the
phase of its status. -/
theorem everyStepKeepsTheInvariant : Obligations.EveryStepKeepsTheInvariant := by
  rintro s t ⟨hc, hMem, hAligned, hPhase⟩ h
  obtain ⟨hcfg, hmem⟩ := step_keeps_cfg_mem h
  refine ⟨hcfg ▸ hc, ?_, step_keeps_pc_aligned hAligned h, ?_⟩
  · rwa [State.MemOk, hcfg, hmem]
  · obtain ⟨hr, -, ⟨hin, rfl⟩ | ⟨w, hf, ⟨-, -, v, -, -, rfl⟩ | ⟨hw, rfl⟩⟩⟩ := step_cases_hasHandler h
    · exact phaseOk_of_fetchFault hr hPhase hin
    · exact phaseOk_of_hasHandler hr hc (State.inRange_of_fetch hf) (rdOf w) v
    · exact phaseOk_of_not_hasHandler hf hw

/-! ### The end of a run -/

/-- The run from the state reaches a final status after at most `k` steps, all before it in `Running`, and with a fault
where it takes all `k`. -/
def State.EndsWithin (s : State) (k : Nat) : Prop :=
  ∃ n t, runSteps n s = .next t ∧ t.status ≠ .running ∧ n ≤ k ∧ (n = k → ∃ f, t.status = .faulted f) ∧
    ∀ m, m < n → ∃ u, runSteps m s = .next u ∧ u.status = .running

theorem State.endsWithin_of_faulted {s : State} {f : FaultKind} (h : s.status = .faulted f) (k : Nat) :
    s.EndsWithin k :=
  ⟨0, s, rfl, by simp [h], Nat.zero_le k, fun _ => ⟨f, h⟩, fun _ hm => absurd hm (Nat.not_lt_zero _)⟩

theorem State.endsWithin_succ_of_final {s : State} (h : s.status ≠ .running) (k : Nat) : s.EndsWithin (k + 1) :=
  ⟨0, s, rfl, h, Nat.zero_le _, fun he => absurd he (by omega), fun _ hm => absurd hm (Nat.not_lt_zero _)⟩

theorem State.endsWithin_succ_of_step {s t : State} {k : Nat} (hr : s.status = .running) (h : step s = .next t)
    (ht : t.EndsWithin k) : s.EndsWithin (k + 1) := by
  obtain ⟨n, u, hRun, hFinal, hn, hFault, hBefore⟩ := ht
  refine ⟨n + 1, u, by rw [runSteps_succ_of_next h, hRun], hFinal, by omega,
    fun he => hFault (by omega), fun m hm => ?_⟩
  cases m with
  | zero => exact ⟨s, rfl, hr⟩
  | succ m =>
    rw [runSteps_succ_of_next h]
    exact hBefore m (by omega)

/-- A step that goes on running has moved the program counter up by 4, without a wrap (R88). -/
theorem step_running_pc {s t : State} (h : step s = .next t) (ht : t.status = .running) :
    InRange s.cfg s.pc 4 ∧ t.cfg = s.cfg ∧ t.pc.toNat = s.pc.toNat + 4 := by
  obtain ⟨hr, hc, ⟨-, rfl⟩ | ⟨w, hf, ⟨-, i, v, -, -, rfl⟩ | ⟨-, rfl⟩⟩⟩ := step_cases_hasHandler h
  · cases ht
  · have hin := State.inRange_of_fetch hf
    rw [status_haltTest_advancePc hr] at ht
    obtain ⟨-, -, hNext⟩ | ⟨-, hpc, -⟩ := advancePc_cases hc hin
    · exact ⟨hin, by simp, by simp [hNext]⟩
    · simp [hpc] at ht
  · cases ht

/-- A running unit with fewer than `k + 1` words between its program counter and the end of the memory stops within
`k + 1` steps, since each completed step leaves one word less. -/
theorem State.endsWithin_of_words_left : ∀ (k : Nat) {s : State}, s.status = .running → s.cfg.wellFormed = true →
    (s.cfg.memBase ≤ s.pc.toNat → s.cfg.memBase + s.cfg.memSize < s.pc.toNat + 4 * (k + 1)) → s.EndsWithin (k + 1)
  | k, s, hr, hc, hk => by
    by_cases hin : InRange s.cfg s.pc 4
    · obtain ⟨hLow, hHigh⟩ := hin
      have hLeft := hk hLow
      obtain ⟨t, h⟩ := exists_step_of_running hr hc
      refine State.endsWithin_succ_of_step hr h ?_
      cases k with
      | zero => omega
      | succ k =>
        by_cases ht : t.status = .running
        · obtain ⟨-, hcfg, hpc⟩ := step_running_pc h ht
          exact State.endsWithin_of_words_left k ht (hcfg ▸ hc) fun _ => by rw [hcfg, hpc]; omega
        · exact State.endsWithin_succ_of_final ht k
    · exact State.endsWithin_succ_of_step hr (step_of_not_inRange hr hc hin) (State.endsWithin_of_faulted rfl k)

/-- Settles O53: from `MEM_BASE` on there are at most `MEM_SIZE / 4` words, and below it no fetch. -/
theorem everyRunEnds : Obligations.EveryRunEnds := by
  intro s hr hc
  obtain ⟨n, t, hRun, hFinal, hn, hFault, hBefore⟩ :=
    State.endsWithin_of_words_left (s.cfg.memSize / 4) hr hc (fun hLow => by omega)
  exact ⟨n, t, hRun, hFinal, hn, hFault, hBefore, fun u => step_not_running hFinal⟩

end Sys2Proof.Machine
end
